-- ==== Sys2Proof/Word.lean ====
section
/-! DEFINITION. The word types of the machine: 8-bit bytes, 32-bit words and addresses, 64-bit
register contents (R6, R10, R14, R20). -/

namespace Sys2Proof

/-- One byte of memory: 8 bits (R6 `BYTE`, R20). -/
abbrev Byte := BitVec 8

/-- An instruction word, or the 32-bit value a word store writes (R2, R32, R45). -/
abbrev Word := BitVec 32

/-- A 32-bit byte address: an effective address or the program counter (R6 `EAW`, `PCW`; R14, R20). -/
abbrev Addr := BitVec 32

/-- The contents of a general register (R6 `XLEN`, R10). -/
abbrev DWord := BitVec 64

end Sys2Proof
end

