-- ==== Sys2Proof/Syntax.lean ====
section
/-! DEFINITION. The instructions: one constructor for each row of spec/opcode_table.json (R4, R52). -/

namespace Sys2Proof

/-- A general register number, 0 to 31, naming r0 to r31 (R10, R51). -/
abbrev Reg := Fin 32

/-- The four mnemonics in scope (R4, R62). -/
inductive Mnemonic where
  | stw
  | stwu
  | stwux
  | stwx
  deriving DecidableEq, Repr

/-- The four instructions in scope (R4). `rs` is the stored register (instruction bits 6 to 10), `ra`
the base (bits 11 to 15), `rb` the index (bits 16 to 20, X form), `d` the signed displacement (bits
16 to 31, D form), with MSB-0 bit numbers (R7, R47, R49). -/
inductive Instr where
  /-- `stw RS, d(RA0)`, Store Word (R67). `ra = 0` selects the literal zero (R51). -/
  | stw (rs ra : Reg) (d : BitVec 16)
  /-- `stwu RS, d(RA)`, Store Word with Update (R68). `ra = 0` is an invalid form (R57). -/
  | stwu (rs ra : Reg) (d : BitVec 16)
  /-- `stwux RS, RA, RB`, Store Word with Update Indexed (R69). `ra = 0` is an invalid form (R57). -/
  | stwux (rs ra rb : Reg)
  /-- `stwx RS, RA0, RB`, Store Word Indexed (R71). `ra = 0` selects the literal zero (R51). -/
  | stwx (rs ra rb : Reg)
  deriving DecidableEq, Repr

/-- The mnemonic of an instruction (R62). -/
def Instr.mnemonic : Instr → Mnemonic
  | .stw _ _ _ => .stw
  | .stwu _ _ _ => .stwu
  | .stwux _ _ _ => .stwux
  | .stwx _ _ _ => .stwx

end Sys2Proof
end

