-- ==== Sys2Proof/WellFormed.lean ====
section
/-! DEFINITION. Which instruction terms the architecture allows: every term except an update form with
RA = 0, the one invalid form the source names (R57). RS = RA and RB = RA are allowed (R70). -/

namespace Sys2Proof

/-- An instruction the architecture allows: the update forms need RA from r1 to r31 (R57, C7); `stw` and
`stwx` take any register numbers, since RA = 0 is the literal zero there (R51). -/
def Instr.wellFormed : Instr → Bool
  | .stw _ _ _ => true
  | .stwu _ ra _ => ra != 0
  | .stwux _ ra _ => ra != 0
  | .stwx _ _ _ => true

end Sys2Proof
end

