-- ==== Sys2Proof/Decode.lean ====
section
/-! DEFINITION. Bit fields in the source's MSB-0 numbering (R7), the opcode table (R52, R53), the decoder,
total on 32-bit words (R55) and on byte lists (R27), the encoder (R54), the host's table-word decoder,
and the assembler spelling (R61). -/

namespace Sys2Proof

/-- `v[a:b]`, the field from MSB-0 bit `a` to MSB-0 bit `b`:
`(v >> (W-1-b)) mod 2^(b-a+1)` (R7). -/
def msb0 {W : Nat} (v : BitVec W) (a b : Nat) : BitVec (b - a + 1) :=
  (v >>> (W - 1 - b)).setWidth (b - a + 1)

/-- The register number in the five bits from MSB-0 bit `a` of a word (R46, R48, R51). -/
def regField (w : Word) (a : Nat) : Reg :=
  Fin.ofNat 32 (msb0 w a (a + 4)).toNat

/-- The field RS, bits 6 to 10 (R47, R49). -/
def rsField (w : Word) : Reg := regField w 6

/-- The field RA, bits 11 to 15 (R47, R49). -/
def raField (w : Word) : Reg := regField w 11

/-- The field RB, bits 16 to 20 (R49). -/
def rbField (w : Word) : Reg := regField w 16

/-- The displacement field `d`, bits 16 to 31 (R50). -/
def dField (w : Word) : BitVec 16 := msb0 w 16 31

/-- One row of the opcode map: a word selects the row when `w AND mask = match` (R53). -/
structure OpcodeRow where
  mnemonic : Mnemonic
  mask : Word
  value : Word
  deriving DecidableEq, Repr

/-- The opcode map of the four instructions (R52, R53). -/
def opcodeRows : List OpcodeRow :=
  [⟨.stw, 0xFC000000, 0x90000000⟩,
   ⟨.stwu, 0xFC000000, 0x94000000⟩,
   ⟨.stwux, 0xFC0007FF, 0x7C00016E⟩,
   ⟨.stwx, 0xFC0007FF, 0x7C00012E⟩]

/-- The row a word selects (R53). -/
def OpcodeRow.selects (r : OpcodeRow) (w : Word) : Bool :=
  w &&& r.mask == r.value

/-- What the decoder finds in a word: an instruction, or one of the three verdicts of R55, which are not
instructions. -/
inductive Decoded where
  /-- One of the four instructions. -/
  | instr (i : Instr)
  /-- An update form with RA field 0 (R57). -/
  | invalidForm (m : Mnemonic) (w : Word)
  /-- Extended opcode 151 or 183 with bit 31 set (R56). -/
  | reservedRc (m : Mnemonic) (w : Word)
  /-- A word none of the four patterns matches (R58). -/
  | notInSpec (w : Word)
  deriving DecidableEq, Repr

/-- `Decode(w)`, in the order of R55's lines. -/
def decode (w : Word) : Decoded :=
  if w &&& 0xFC000000 = 0x90000000 then
    .instr (.stw (rsField w) (raField w) (dField w))
  else if w &&& 0xFC000000 = 0x94000000 then
    if raField w = 0 then .invalidForm .stwu w
    else .instr (.stwu (rsField w) (raField w) (dField w))
  else if w &&& 0xFC0007FE = 0x7C00016E then
    if msb0 w 31 31 = 1 then .reservedRc .stwux w
    else if raField w = 0 then .invalidForm .stwux w
    else .instr (.stwux (rsField w) (raField w) (rbField w))
  else if w &&& 0xFC0007FE = 0x7C00012E then
    if msb0 w 31 31 = 1 then .reservedRc .stwx w
    else .instr (.stwx (rsField w) (raField w) (rbField w))
  else .notInSpec w

/-- The word whose bytes in memory order are `b0 b1 b2 b3`: the first byte is the most significant
(R27, D3). -/
def wordOfBytes (b0 b1 b2 b3 : Byte) : Word :=
  BitVec.ofNat 32 (b0.toNat * 2 ^ 24 + b1.toNat * 2 ^ 16 + b2.toNat * 2 ^ 8 + b3.toNat)

/-- Byte `k` (0 to 3) of a word in memory order, most significant first:
`(v >> (8*(3-k))) mod 256` (R25, R26, R27). -/
def byteOfWord (v : Word) (k : Nat) : Byte :=
  (v >>> (8 * (3 - k))).setWidth 8

/-- The four bytes of a word in memory order (R25, R27). -/
def bytesOfWord (v : Word) : List Byte :=
  [byteOfWord v 0, byteOfWord v 1, byteOfWord v 2, byteOfWord v 3]

/-- Decoding the front of a list of bytes in memory order: what the first four bytes hold, with the rest
of the list, or nothing where fewer than four bytes remain (R27, R45: every instruction is exactly four
bytes). -/
def decodeBytes : List Byte → Option (Decoded × List Byte)
  | b0 :: b1 :: b2 :: b3 :: rest => some (decode (wordOfBytes b0 b1 b2 b3), rest)
  | _ => none

/-- The word of an instruction (R54). -/
def encode : Instr → Word
  | .stw rs ra d =>
      BitVec.ofNat 32 (0x90000000 + rs.val * 2 ^ 21 + ra.val * 2 ^ 16 + d.toNat)
  | .stwu rs ra d =>
      BitVec.ofNat 32 (0x94000000 + rs.val * 2 ^ 21 + ra.val * 2 ^ 16 + d.toNat)
  | .stwux rs ra rb =>
      BitVec.ofNat 32 (0x7C00016E + rs.val * 2 ^ 21 + ra.val * 2 ^ 16 + rb.val * 2 ^ 11)
  | .stwx rs ra rb =>
      BitVec.ofNat 32 (0x7C00012E + rs.val * 2 ^ 21 + ra.val * 2 ^ 16 + rb.val * 2 ^ 11)

/-- The 32-bit instruction word of an opcode-table row's bits: the low `nbits` bits of `w`, every bit
above them 0. The table numbers bit 0 as the least significant bit of the word, as `BitVec` does. -/
def tableWord (nbits w : Nat) : Word :=
  BitVec.ofNat 32 (w % 2 ^ nbits)

/-- The instruction the decoder reads from an instruction whose bits are `w`, laid out as the four bytes
the hardware would hold (R27). -/
def decodeTableWord (nbits w : Nat) : Option Instr :=
  match decodeBytes (bytesOfWord (tableWord nbits w)) with
  | some (.instr i, _) => some i
  | _ => none

/-- A mnemonic as the source spells it (R62). -/
def Mnemonic.spelling : Mnemonic → String
  | .stw => "stw"
  | .stwu => "stwu"
  | .stwux => "stwux"
  | .stwx => "stwx"

/-- A register as the source writes it: `r` and its decimal number (R61). -/
def regSpelling (r : Reg) : String := "r" ++ Nat.repr r.val

/-- The RA0 operand: a bare `0` for the literal zero, never `r0` (R61). -/
def ra0Spelling (r : Reg) : String := if r = 0 then "0" else regSpelling r

/-- A displacement as a signed decimal number (R61). -/
def dispSpelling (d : BitVec 16) : String :=
  if d.toNat < 2 ^ 15 then Nat.repr d.toNat else "-" ++ Nat.repr (2 ^ 16 - d.toNat)

/-- The assembler line of an instruction (R2, R61). -/
def Instr.assembly : Instr → String
  | .stw rs ra d => "stw " ++ regSpelling rs ++ ", " ++ dispSpelling d ++ "(" ++ ra0Spelling ra ++ ")"
  | .stwu rs ra d => "stwu " ++ regSpelling rs ++ ", " ++ dispSpelling d ++ "(" ++ regSpelling ra ++ ")"
  | .stwux rs ra rb => "stwux " ++ regSpelling rs ++ ", " ++ regSpelling ra ++ ", " ++ regSpelling rb
  | .stwx rs ra rb => "stwx " ++ regSpelling rs ++ ", " ++ ra0Spelling ra ++ ", " ++ regSpelling rb

end Sys2Proof
end

