-- ==== Sys2Proof/Config.lean ====
section
/-! DEFINITION. What the hardware fixes (R6) and the one free value of the model: whether a store keeps
the storing thread's own reservation (R39, D17). The parameters the spec leaves to each launch
(`TEXT`, `END_PC`, `MEM_MAP`, `CACHE_INHIBITED`, `RES_GRANULE`) are data of the state, in
`Sys2Proof.Machine.Launch`, so that every statement ranges over all their values. -/

namespace Sys2Proof

/-- `LINE`, the size of a cache line in bytes (R6, R22, R29, R95). -/
def Config.lineBytes : Nat := 128

/-- One past the highest byte address: addresses are 32-bit numbers (R20). -/
def Config.addressLimit : Nat := 2 ^ 32

/-- The highest address at which a word store has all its four bytes (R34 step 1), and the program
counter whose successor does not fit in 32 bits (R15). -/
def Config.lastWordAddress : Addr := 0xFFFFFFFC

/-- FREE VALUE (assumption 9). Whether a word store keeps the storing thread's own reservation on a
granule it touches: R39 leaves it open ("each may be removed or kept"), D17. The arguments are the
number of word stores performed so far (`State.draws`) and the granule, so the two granules of one
store are decided separately. It has no body: nothing can be proved of its value. -/
opaque Config.ownReservationKept : Nat → Nat → Bool

end Sys2Proof
end

