-- ==== Sys2Proof/Machine/State.lean ====
section
/-! DEFINITION. The machine's state as plain data: the running hardware thread's registers, program counter
and marks, the other threads, memory, stores not yet visible to other threads, the reservation table, and
what the launch supplies (R6, R10, R14, R19 to R24, R86, R87). -/

namespace Sys2Proof.Machine

/-- Why a step stops because the machine itself has no next state to give (R77, R89). -/
inductive Fault where
  /-- Raised by the store primitive (R34 step 4, R33): one of the four bytes at `ea` lies outside
  `MEM_MAP`. Safe: the model stops where the hardware may trap and go on. -/
  | storageFault (ea : Addr)
  /-- Raised by the step when the thread stands at `END_PC` (R89, U16): the run has ended and no step is
  taken. Not a mark: the state is final when no mark is set. Safe: the hardware goes on fetching there. -/
  | runEnded
  deriving DecidableEq, Repr

/-- Why a step stops because the spec gives the situation no meaning (R77). -/
inductive Refusal where
  /-- Raised by `exec` alone, for an instruction with no meaning yet. Safe: no claim rests on it. -/
  | notModelled (mnemonic : String)
  /-- Raised by the step for a word that is none of the four instructions (R58). Safe: the word may be a
  good instruction of the hardware. -/
  | notInSpec (w : Word)
  /-- Raised by the step, and by the meanings of `stwu` and `stwux`, when the RA field is 0 (R57). Safe:
  the source gives an invalid form no effect. -/
  | invalidForm (m : Mnemonic)
  /-- Raised by the step for extended opcode 151 or 183 with bit 31 set (R56). Safe. -/
  | reservedRc (m : Mnemonic)
  /-- Raised by the fetch when the program counter is not a multiple of 4 (R31, R41). Safe. -/
  | misalignedPc
  /-- Raised by the fetch when `TEXT` holds nothing at the program counter (R41). Safe. -/
  | noInstruction (pc : Addr)
  /-- Raised by every meaning when the program counter is 0xFFFFFFFC, so that its successor does not fit
  in 32 bits (R15). Safe. -/
  | pcWrap
  /-- Raised by the store primitive when the word passes the top of the address space (R34 step 1). Safe. -/
  | addressWrap (ea : Addr)
  /-- Raised by the store primitive when the store overlaps a word of `TEXT` (R34 step 2, R42). Safe. -/
  | storeToText (ea : Addr)
  /-- Raised by the store primitive for a misaligned store touching cache-inhibited storage (R34 step 3,
  R30). Safe. -/
  | misalignedCacheInhibited (ea : Addr)
  deriving DecidableEq, Repr

/-- A range of byte addresses: `size` bytes from `base`. -/
structure Region where
  base : Nat
  size : Nat
  deriving DecidableEq, Repr

/-- A finite map from numbers to values, as pairs with rising keys (the canonical form, kept by every
operation). -/
abbrev Table (α : Type) := List (Nat × α)

/-- Data memory `M`: a partial map from byte addresses to bytes (R20). An unlisted address holds no value:
reading one gives nothing (assumption 4; R24, U17). -/
abbrev Memory := Table Byte

/-- What the harness supplies for a run and no step changes (R6, R21, R87). -/
structure Launch where
  /-- `TEXT`, from 4-byte-aligned addresses to instruction words (R21, R41). -/
  text : Table Word
  /-- `END_PC`, where a thread's run ends (R89). -/
  endPc : Addr
  /-- `MEM_MAP`, the byte addresses that exist and may be stored to (R33). -/
  memMap : List Region
  /-- `CACHE_INHIBITED`, the byte addresses of cache-inhibited storage (R30). -/
  cacheInhibited : List Region
  /-- `RES_GRANULE`, the reservation granule in bytes (R6, R39). -/
  resGranule : Nat
  deriving DecidableEq, Repr

/-- A reservation: hardware thread `thread` holds one on the granule whose first byte is at `granule`
(R19). -/
structure Reservation where
  thread : Nat
  granule : Nat
  deriving DecidableEq, Repr

/-- What each hardware thread has of its own (R86): its general registers, its program counter and its
two sticky marks (R23). -/
structure Thread where
  /-- r0 to r31 (R10). -/
  gpr : Vector DWord 32
  /-- The program counter (R14). -/
  pc : Addr
  /-- The mark `faulted`, with its reason (R23). -/
  faulted : Option Fault
  /-- The mark `refused`, with its reason (R23). -/
  refused : Option Refusal
  deriving DecidableEq, Repr

/-- Bytes a thread has stored that become visible in memory together, and are not yet visible to other
threads (R35, R38): the four bytes of an aligned word store, or one byte of a misaligned one. That all other
threads see them from one moment on is the model's choice (assumption 19). -/
structure PendingStore where
  thread : Nat
  cells : Table Byte
  deriving DecidableEq, Repr

/-- Who moves next when more than one hardware thread runs (R86, R35, R38): a thread takes a step, or a
pending store becomes visible in memory. -/
inductive Move where
  | run (thread : Nat)
  | commit (index : Nat)
  deriving DecidableEq, Repr

/-- The state of the machine. The fields `gpr`, `pc`, `faulted` and `refused` are those of the hardware
thread that moved last, whose number is `self`; the other threads stand in `others`. -/
structure State where
  /-- r0 to r31 of the running thread (R10). -/
  gpr : Vector DWord 32
  /-- The program counter of the running thread (R14). -/
  pc : Addr
  /-- The running thread's mark `faulted` (R23). -/
  faulted : Option Fault
  /-- The running thread's mark `refused` (R23). -/
  refused : Option Refusal
  /-- The number of the running thread (R39 `self`, R86). -/
  self : Nat
  /-- The other hardware threads by number (R86); empty when `NUM_THREADS` is 1. -/
  others : Table Thread
  /-- Data memory `M`, shared (R20, R86). -/
  mem : Memory
  /-- Stores not yet visible to other threads, oldest first (R35, R38); empty when `NUM_THREADS` is 1. -/
  pending : List PendingStore
  /-- The reservation table `RES`, shared (R19, R86). -/
  res : List Reservation
  /-- The MODEL's own counter of performed word stores, which the free value of R39 is read at. -/
  draws : Nat
  /-- The MODEL's own input: the moves to come. When it is empty the running thread moves (R86). -/
  schedule : List Move
  /-- What the launch supplied (R87). -/
  launch : Launch
  deriving DecidableEq, Repr

/-- The launch of the reset state (assumption 2): no program text, every byte address mapped, no
cache-inhibited storage (R30's default), a reservation granule of one cache line (assumption 11). -/
def Launch.reset : Launch where
  text := []
  endPc := 0x00001004
  memMap := [⟨0, Config.addressLimit⟩]
  cacheInhibited := []
  resGranule := Config.lineBytes

/-- The machine before its first step. The spec gives no reset (R24, R87), so every value here is the
model's: registers zero (assumption 1), the launch and program counter of assumption 2, one thread
(R6's default), no reservation and no mark (R24's launch values), memory with nothing listed. -/
def State.reset : State where
  gpr := Vector.replicate 32 0
  pc := 0x00001000
  faulted := none
  refused := none
  self := 0
  others := []
  mem := []
  pending := []
  res := []
  draws := 0
  schedule := []
  launch := Launch.reset

end Sys2Proof.Machine
end

