-- ==== Sys2Proof/Machine/Ops.lean ====
section
/-! DEFINITION. The named operations over tables, memory, registers, reservations and threads; the store
primitive `MemWrite` (R34); how a stop marks the state (R23, R82). -/

namespace Sys2Proof.Machine

/-! ## Tables: finite maps with rising keys -/

/-- The value at a key, if there is one. -/
def tableGet {α : Type} : Table α → Nat → Option α
  | [], _ => none
  | (k, x) :: rest, a => if k = a then some x else tableGet rest a

/-- The table with `x` at key `a`, keys kept rising. -/
def tableSet {α : Type} : Table α → Nat → α → Table α
  | [], a, x => [(a, x)]
  | (k, y) :: rest, a, x =>
      if a < k then (a, x) :: (k, y) :: rest
      else if a = k then (a, x) :: rest
      else (k, y) :: tableSet rest a x

/-- The table without key `a`. -/
def tableErase {α : Type} (m : Table α) (a : Nat) : Table α :=
  m.filter (fun c => c.1 ≠ a)

/-- The canonical form: keys strictly rising. -/
abbrev tableSorted {α : Type} (m : Table α) : Prop :=
  (m.map Prod.fst).Pairwise (· < ·)

/-! ## Memory (R20, R25, R26) -/

/-- The byte of memory at an address; nothing where none has been written (assumption 4). -/
def Memory.read (m : Memory) (a : Nat) : Option Byte := tableGet m a

/-- Memory with byte `b` at address `a`. -/
def Memory.write (m : Memory) (a : Nat) (b : Byte) : Memory := tableSet m a b

/-- Memory with cells written in order. -/
def Memory.writeCells (m : Memory) (cells : Table Byte) : Memory :=
  cells.foldl (fun acc c => acc.write c.1 c.2) m

/-- The canonical form of memory: addresses strictly rising, all of them 32-bit addresses (R20). Since an
unlisted address reads as nothing, no listed byte equals it. -/
abbrev Memory.wf (m : Memory) : Prop :=
  tableSorted m ∧ ∀ c ∈ m, c.1 < Config.addressLimit

/-- The four bytes of a word store with their addresses, big-endian (R25, R34 step 6). -/
def wordCells (ea : Addr) (v : Word) : Table Byte :=
  [(ea.toNat, byteOfWord v 0), (ea.toNat + 1, byteOfWord v 1),
   (ea.toNat + 2, byteOfWord v 2), (ea.toNat + 3, byteOfWord v 3)]

/-- Memory after the four byte writes of a word store (R34 step 6). -/
def Memory.writeWord (m : Memory) (ea : Addr) (v : Word) : Memory :=
  m.writeCells (wordCells ea v)

/-- The big-endian halfword at an address, if both its bytes hold values (R26). -/
def Memory.readHalf (m : Memory) (a : Nat) : Option (BitVec 16) :=
  match m.read a, m.read (a + 1) with
  | some b0, some b1 => some (BitVec.ofNat 16 (b0.toNat * 2 ^ 8 + b1.toNat))
  | _, _ => none

/-- The big-endian word at an address, if all its bytes hold values (R25). -/
def Memory.readWord (m : Memory) (a : Nat) : Option Word :=
  match m.read a, m.read (a + 1), m.read (a + 2), m.read (a + 3) with
  | some b0, some b1, some b2, some b3 => some (wordOfBytes b0 b1 b2 b3)
  | _, _, _, _ => none

/-! ## Registers (R10, R13) -/

/-- `x[r]`, a general register (R8). -/
def State.readGpr (s : State) (r : Reg) : DWord := s.gpr.get r

/-- `x[r] <- v` (R8). -/
def State.writeGpr (s : State) (r : Reg) (v : DWord) : State :=
  { s with gpr := s.gpr.set r.val v r.isLt }

/-- `pc <- pc + 4` (R15). -/
def State.advancePc (s : State) : State :=
  { s with pc := s.pc + 4 }

/-! ## What the launch says of an address (R30, R33, R34) -/

/-- An address lies in a region. -/
def Region.holds (r : Region) (a : Nat) : Bool :=
  r.base ≤ a && a < r.base + r.size

/-- An address lies in one of the regions. -/
def inRegions (rs : List Region) (a : Nat) : Bool :=
  rs.any (·.holds a)

/-- `MEM_MAP` (R33). -/
def Launch.mapped (l : Launch) (a : Nat) : Bool := inRegions l.memMap a

/-- `CACHE_INHIBITED` (R30). -/
def Launch.inhibited (l : Launch) (a : Nat) : Bool := inRegions l.cacheInhibited a

/-- A byte address lies inside a word of `TEXT` (R34 step 2, R42). -/
def Launch.inText (l : Launch) (b : Nat) : Bool :=
  l.text.any (fun c => c.1 ≤ b && b ≤ c.1 + 3)

/-- The addresses `ea` to `ea+3` of a word store. -/
def wordAddrs (ea : Addr) : List Nat :=
  [ea.toNat, ea.toNat + 1, ea.toNat + 2, ea.toNat + 3]

/-! ## Reservations (R19, R39) -/

/-- `g(a) = a - (a mod RES_GRANULE)` (R39). -/
def Launch.granuleOf (l : Launch) (a : Nat) : Nat := a - a % l.resGranule

/-- A granule is that of `ea` or that of `ea+3` (R39). -/
def Launch.granuleHit (l : Launch) (ea : Addr) (granule : Nat) : Bool :=
  granule == l.granuleOf ea.toNat || granule == l.granuleOf (ea.toNat + 3)

/-- Whether a reservation outlives a word store at `ea` (R39): on another granule always, on a granule of
the store never if another thread holds it, and as the free value says if the storing thread does. -/
def State.keepsReservation (s : State) (ea : Addr) (r : Reservation) : Bool :=
  !s.launch.granuleHit ea r.granule ||
    (r.thread == s.self && Config.ownReservationKept s.draws r.granule)

/-- `KillReservations(EA, 4)` (R39, D16, D17), counting the draw of the free value. -/
def State.killReservations (s : State) (ea : Addr) : State :=
  { s with res := s.res.filter (s.keepsReservation ea), draws := s.draws + 1 }

/-! ## The store primitive (R34, R35, R38) -/

/-- What a word store leaves to become visible to other threads (R35): the four bytes together when
aligned, each byte by itself when misaligned. -/
def pendingOf (thread : Nat) (ea : Addr) (v : Word) : List PendingStore :=
  if ea.toNat % 4 = 0 then [⟨thread, wordCells ea v⟩]
  else (wordCells ea v).map (fun c => ⟨thread, [c]⟩)

/-- R34 step 6. With one hardware thread the bytes are in `M` when the step completes (R38). With more,
when and in which order other threads see them is left open (R35, R38), so they wait in `pending`
(assumptions 12 and 19). -/
def State.putWord (s : State) (ea : Addr) (v : Word) : State :=
  if s.others.isEmpty && s.pending.isEmpty then { s with mem := s.mem.writeWord ea v }
  else { s with pending := s.pending ++ pendingOf s.self ea v }

/-- `MemWrite(EA, 4, v)`: the admission checks in R34's order, then the reservations, then the bytes. -/
def State.memWrite (s : State) (ea : Addr) (v : Word) : Host.Outcome State Fault Refusal :=
  if Config.lastWordAddress < ea then .refused (.addressWrap ea)
  else if (wordAddrs ea).any s.launch.inText then .refused (.storeToText ea)
  else if ea.toNat % 4 ≠ 0 ∧ (wordAddrs ea).any s.launch.inhibited then
    .refused (.misalignedCacheInhibited ea)
  else if (wordAddrs ea).all s.launch.mapped then .next ((s.killReservations ea).putWord ea v)
  else .fault (.storageFault ea)

/-- A word store touches two cache lines (R29, R95). It changes nothing the model computes. -/
def straddlesLine (ea : Addr) : Bool :=
  Config.lineBytes - 4 < ea.toNat % Config.lineBytes

/-- The byte at an address as a thread sees it: its own newest pending store there (R38: a thread's own later
store wins), else memory. DESIGN CHOICE (assumption 19): what is not its own a thread sees in the one memory
all threads share, where the spec leaves each thread's view of another's stores open. -/
def State.threadView (s : State) (thread : Nat) (a : Nat) : Option Byte :=
  s.pending.foldl
    (fun acc p => if p.thread = thread then (tableGet p.cells a).or acc else acc) (s.mem.read a)

/-! ## Pending stores become visible (R35, R38) -/

/-- Two pending stores write a byte in common. -/
def PendingStore.overlaps (p q : PendingStore) : Bool :=
  p.cells.any (fun c => q.cells.any (fun d => c.1 == d.1))

/-- The pending store at an index may become visible: no older store of the same thread still waits for
one of its bytes (R38: a thread's last store in program order wins). -/
def mayCommit (pending : List PendingStore) (k : Nat) (p : PendingStore) : Bool :=
  (pending.take k).all (fun q => !(q.thread == p.thread && q.overlaps p))

/-- The pending store at index `k` becomes visible; a move the spec does not allow does nothing.
DESIGN CHOICE (assumption 19): it becomes visible to every other thread at this one moment, so no two threads
see two stores in opposite orders. The spec promises nothing of this: `MEMORY_MODEL` is open (R6, R38, D14,
U10). Only when a store becomes visible, and which one next, is left open here (assumption 12). -/
def State.commit (s : State) (k : Nat) : State :=
  match s.pending[k]? with
  | some p =>
      if mayCommit s.pending k p then
        { s with mem := s.mem.writeCells p.cells, pending := s.pending.eraseIdx k }
      else s
  | none => s

/-! ## Threads (R86) -/

/-- The running thread's own part of the state (R86). -/
def State.context (s : State) : Thread := ⟨s.gpr, s.pc, s.faulted, s.refused⟩

/-- A thread's own part of the state, the running thread's or another's. -/
def State.contextOf (s : State) (t : Nat) : Option Thread :=
  if t = s.self then some s.context else tableGet s.others t

/-- `NUM_THREADS` (R6, R86). -/
def State.numThreads (s : State) : Nat := s.others.length + 1

/-- The state with thread `t` running; nothing where there is no such thread. -/
def State.switchTo (s : State) (t : Nat) : Option State :=
  if t = s.self then some s
  else match tableGet s.others t with
    | some th =>
        some { s with
          gpr := th.gpr, pc := th.pc, faulted := th.faulted, refused := th.refused, self := t,
          others := tableSet (tableErase s.others t) s.self s.context }
    | none => none

/-! ## A stop (R9, R23, R77, R82) -/

/-- The state a step leaves, its outcome recorded: the next state; or the state as it was with the sticky
mark set (R23, R82: no other state changes, `pc` stays). The end of a run sets no mark (R89). -/
def State.record (s : State) : Host.Outcome State Fault Refusal → State
  | .next t => t
  | .fault .runEnded => s
  | .fault r => { s with faulted := some r }
  | .refused r => { s with refused := some r }

end Sys2Proof.Machine
end

