-- ==== Sys2Proof/Machine/Operands.lean ====
section
/-! DEFINITION. The operand forms of the four instructions: the two readings of RA (R51, R63), the
displacement (R50), the effective address (R64), the stored value (R65) and the update value (R66). -/

namespace Sys2Proof.Machine

/-- `sext_64(d)` (R8, R50). -/
def sext64 (d : BitVec 16) : DWord := d.signExtend 64

/-- `zext_64(v)` (R8). -/
def zext64 (v : Word) : DWord := v.setWidth 64

/-- `trunc_32(v) = v[32:63]` (R8). -/
def trunc32 (v : DWord) : Word := v.setWidth 32

/-- The RA0 operand: the literal zero when RA = 0, where no register is read, else `x[RA]` (R51, R63). -/
def State.baseOrZero (s : State) (ra : Reg) : DWord :=
  if ra = 0 then 0 else s.readGpr ra

/-- `EA = trunc_32(base + addend)`, the sum taken modulo 2^64 (R64, R72). -/
def effectiveAddress (base addend : DWord) : Addr := trunc32 (base + addend)

/-- The effective address of `stw` (R64, R67). -/
def State.eaStw (s : State) (ra : Reg) (d : BitVec 16) : Addr :=
  effectiveAddress (s.baseOrZero ra) (sext64 d)

/-- The effective address of `stwu` (R64, R68). -/
def State.eaStwu (s : State) (ra : Reg) (d : BitVec 16) : Addr :=
  effectiveAddress (s.readGpr ra) (sext64 d)

/-- The effective address of `stwux` (R64, R69). -/
def State.eaStwux (s : State) (ra rb : Reg) : Addr :=
  effectiveAddress (s.readGpr ra) (s.readGpr rb)

/-- The effective address of `stwx` (R64, R71). -/
def State.eaStwx (s : State) (ra rb : Reg) : Addr :=
  effectiveAddress (s.baseOrZero ra) (s.readGpr rb)

/-- The value a word store writes: `trunc_32(x[RS])` (R65). -/
def State.storedValue (s : State) (rs : Reg) : Word := trunc32 (s.readGpr rs)

/-- `x[RA] <- zext_64(EA)`, the update (R66). -/
def State.updateBase (s : State) (ra : Reg) (ea : Addr) : State :=
  s.writeGpr ra (zext64 ea)

/-- The effective address of an instruction in a state (R64). -/
def State.eaOf (s : State) : Instr → Addr
  | .stw _ ra d => s.eaStw ra d
  | .stwu _ ra d => s.eaStwu ra d
  | .stwux _ ra rb => s.eaStwux ra rb
  | .stwx _ ra rb => s.eaStwx ra rb

/-- The register whose low word an instruction stores (R11, R65). -/
def sourceReg : Instr → Reg
  | .stw rs _ _ => rs
  | .stwu rs _ _ => rs
  | .stwux rs _ _ => rs
  | .stwx rs _ _ => rs

/-- The register an instruction writes: RA in the update forms, none otherwise (R11). -/
def writtenReg : Instr → Option Reg
  | .stw _ _ _ => none
  | .stwu _ ra _ => some ra
  | .stwux _ ra _ => some ra
  | .stwx _ _ _ => none

end Sys2Proof.Machine
end

