-- ==== Sys2Proof/Machine/Flags.lean ====
section
/-! DEFINITION. Flags: there are none to compute. The four instructions have no condition-register and no
status-register effects, bit 31 is no record flag, and the spec gives no flag register a layout (R16, R17,
R56, R72: "no carry or overflow flag"). The file stands so that the absence is said where a reader looks
for it. -/
end

