-- ==== Sys2Proof/Machine/StoreWord.lean ====
section
/-! DEFINITION. The meanings of the store-word family (R63 to R74). -/

namespace Sys2Proof.Machine

/-- What every store-word instruction does once its operands are read (R74): the check of the program
counter (R15), then `MemWrite` (R34), then the update of the form, then `pc <- pc + 4`. Whatever stops it
stops it before any state changes (R9). -/
def State.completeStore (s : State) (ea : Addr) (v : Word) (update : State → State) :
    Host.Outcome State Fault Refusal :=
  if s.pc = Config.lastWordAddress then .refused .pcWrap
  else match s.memWrite ea v with
    | .next t => .next (update t).advancePc
    | .fault r => .fault r
    | .refused r => .refused r

/-- `stw RS, d(RA0)` (R67). -/
def execStw (rs ra : Reg) (d : BitVec 16) (s : State) : Host.Outcome State Fault Refusal :=
  s.completeStore (s.eaStw ra d) (s.storedValue rs) id

/-- `stwu RS, d(RA)` (R68, R70): the invalid form is refused (R57), the value is read before RA is
written (R66). -/
def execStwu (rs ra : Reg) (d : BitVec 16) (s : State) : Host.Outcome State Fault Refusal :=
  if ra = 0 then .refused (.invalidForm .stwu)
  else s.completeStore (s.eaStwu ra d) (s.storedValue rs) (fun t => t.updateBase ra (s.eaStwu ra d))

/-- `stwux RS, RA, RB` (R69, R70). -/
def execStwux (rs ra rb : Reg) (s : State) : Host.Outcome State Fault Refusal :=
  if ra = 0 then .refused (.invalidForm .stwux)
  else s.completeStore (s.eaStwux ra rb) (s.storedValue rs) (fun t => t.updateBase ra (s.eaStwux ra rb))

/-- `stwx RS, RA0, RB` (R71). -/
def execStwx (rs ra rb : Reg) (s : State) : Host.Outcome State Fault Refusal :=
  s.completeStore (s.eaStwx ra rb) (s.storedValue rs) id

end Sys2Proof.Machine
end

