-- ==== Sys2Proof/Machine/Thread.lean ====
section
/-! DEFINITION. Instruction fetch (R41), the step of one hardware thread (R74), the moves of several
threads (R86), and how an instruction is placed for the host. -/

namespace Sys2Proof.Machine

/-- What the fetch finds at the program counter (R41). -/
inductive Fetched where
  /-- The word `TEXT(pc)`. -/
  | word (w : Word)
  /-- `pc = END_PC`: the run has ended and nothing is fetched (R89). -/
  | ended
  /-- `MisalignedPc` or `NoInstruction`. -/
  | refused (r : Refusal)
  deriving DecidableEq, Repr

/-- `Fetch(pc)`, in the order of R41; instructions come from `TEXT`, never from `M` (R21, R42). -/
def State.fetch (s : State) : Fetched :=
  if s.pc.toNat % 4 ≠ 0 then .refused .misalignedPc
  else if s.pc = s.launch.endPc then .ended
  else match tableGet s.launch.text s.pc.toNat with
    | some w => .word w
    | none => .refused (.noInstruction s.pc)

/-- Executing what the decoder found: an instruction runs, a verdict refuses (R55 to R58, R74). -/
def State.execDecoded (s : State) : Decoded → Host.Outcome State Fault Refusal
  | .instr i => exec i s
  | .invalidForm m _ => .refused (.invalidForm m)
  | .reservedRc m _ => .refused (.reservedRc m)
  | .notInSpec w => .refused (.notInSpec w)

/-- The step of the running hardware thread, in the order of R74: a marked thread takes no step and
answers its mark again (R23), a thread at `END_PC` takes none (R89), otherwise the fetched word is decoded
and executed. -/
def State.threadStep (s : State) : Host.Outcome State Fault Refusal :=
  match s.faulted, s.refused with
  | some r, _ => .fault r
  | none, some r => .refused r
  | none, none =>
      if s.pc = s.launch.endPc then .fault .runEnded
      else match s.fetch with
        | .word w => s.execDecoded (decode w)
        | .ended => .fault .runEnded
        | .refused r => .refused r

/-- One move (R86): a thread steps, or a pending store becomes visible. A move that names no thread of the
machine does nothing. -/
def State.move (s : State) : Move → Host.Outcome State Fault Refusal
  | .run t =>
      match s.switchTo t with
      | some u => u.threadStep
      | none => .next s
  | .commit k => .next (s.commit k)

/-- The next step of the machine: the first move of the schedule, or a step of the running thread where
the schedule is empty (R86; assumption 10). -/
def State.stepMachine (s : State) : Host.Outcome State Fault Refusal :=
  match s.schedule with
  | [] => s.threadStep
  | m :: rest => { s with schedule := rest }.move m

/-- The state whose thread the next step runs: the schedule's first move taken off it and carried out as
far as choosing the thread. -/
def State.chosen (s : State) : State :=
  match s.schedule with
  | [] => s
  | .run t :: rest => ({ s with schedule := rest }.switchTo t).getD { s with schedule := rest }
  | .commit _ :: rest => { s with schedule := rest }

/-- The step with its outcome recorded in the state (R23, R82): the machine as the spec's sticky marks
describe it. -/
def State.advance (s : State) : State :=
  s.chosen.record s.stepMachine

/-- The state with a word placed at the program counter, and everything else its being fetched takes: an
aligned program counter that is not `END_PC`, no mark, no scheduled move (R41, R74, R87). It stands for
the harness loading a program. -/
def State.placeWord (s : State) (w : Word) : State :=
  let pc := s.pc &&& 0xFFFFFFFC
  { s with
    pc := pc
    faulted := none
    refused := none
    schedule := []
    launch := { s.launch with
      text := tableSet s.launch.text pc.toNat w
      endPc := if s.launch.endPc = pc then pc + 4 else s.launch.endPc } }

end Sys2Proof.Machine
end

