-- ==== Sys2Proof/Machine/Step.lean ====
section
/-! DEFINITION. The machine's step, and the state with an instruction placed for its next step. -/

namespace Sys2Proof.Machine

/-- One step of the machine (R74, R86). -/
def step (s : State) : Host.Outcome State Fault Refusal := s.stepMachine

/-- The state with the opcode-table word `w` of `nbits` bits placed where the next step fetches (R41). -/
def State.withFetchWord (s : State) (nbits w : Nat) : State :=
  s.placeWord (tableWord nbits w)

end Sys2Proof.Machine
end

