-- ==== Sys2Proof/Safety.lean ====
section
/-! DEFINITION. The terms claims are made in: which stores are admitted (R34), when a run has ended well
(R23, R89), what a launch must provide (R44, R88), and the invariant of the machine's state. -/

namespace Sys2Proof.Machine

/-- The admission checks of R34 all pass for a word store at `ea`. -/
abbrev State.admits (s : State) (ea : Addr) : Prop :=
  ea ≤ Config.lastWordAddress ∧
  (∀ k < 4, s.launch.inText (ea.toNat + k) = false) ∧
  (ea.toNat % 4 = 0 ∨ ∀ k < 4, s.launch.inhibited (ea.toNat + k) = false) ∧
  ∀ k < 4, s.launch.mapped (ea.toNat + k) = true

/-- Neither mark is set on the running thread (R23). -/
abbrev State.unmarked (s : State) : Prop := s.faulted = none ∧ s.refused = none

/-- The running thread's run has ended and supports a claim: it stands at `END_PC` with neither mark set
(R23, R89). -/
abbrev State.final (s : State) : Prop := s.pc = s.launch.endPc ∧ s.unmarked

/-- Every thread's run is final and every store is visible in memory (R86, R89). -/
abbrev State.allFinal (s : State) : Prop :=
  s.final ∧ s.pending = [] ∧
  ∀ c ∈ s.others, c.2.pc = s.launch.endPc ∧ c.2.faulted = none ∧ c.2.refused = none

/-- `TEXT` is defined on every aligned address from the program counter up to but not including `END_PC`
(R88). -/
abbrev State.textReady (s : State) : Prop :=
  s.pc.toNat % 4 = 0 ∧ s.launch.endPc.toNat % 4 = 0 ∧ s.pc ≤ s.launch.endPc ∧
  ∀ k < (s.launch.endPc.toNat - s.pc.toNat) / 4,
    (tableGet s.launch.text (s.pc.toNat + 4 * k)).isSome = true

/-- The program text is a map from 4-byte-aligned addresses, and the granule a power of two not smaller
than 4 (R6, R21). -/
abbrev Launch.wf (l : Launch) : Prop :=
  tableSorted l.text ∧ (∀ c ∈ l.text, c.1 % 4 = 0 ∧ c.1 < Config.addressLimit) ∧
  4 ≤ l.resGranule ∧ 2 ^ l.resGranule.log2 = l.resGranule

/-- The order in which the reservation table lists its pairs, so that equal sets are equal data (R19). -/
abbrev Reservation.before (r q : Reservation) : Prop :=
  r.thread < q.thread ∨ (r.thread = q.thread ∧ r.granule < q.granule)

/-- The reservation table is a set of pairs (thread, granule), each on an aligned granule (R19). -/
abbrev State.reservationsWf (s : State) : Prop :=
  s.res.Pairwise Reservation.before ∧ ∀ r ∈ s.res, r.granule % s.launch.resGranule = 0

/-- The threads have distinct numbers (R86). -/
abbrev State.threadsWf (s : State) : Prop :=
  tableSorted s.others ∧ ∀ c ∈ s.others, c.1 ≠ s.self

/-- Pending stores name each 32-bit address at most once, in rising order, and there are none when there is
one thread (R20, R38). -/
abbrev State.pendingWf (s : State) : Prop :=
  (∀ p ∈ s.pending, tableSorted p.cells ∧ ∀ c ∈ p.cells, c.1 < Config.addressLimit) ∧
  (s.others = [] → s.pending = [])

/-- The invariant of the machine's state: every component is in its canonical form. -/
abbrev State.Inv (s : State) : Prop :=
  s.mem.wf ∧ s.launch.wf ∧ s.reservationsWf ∧ s.threadsWf ∧ s.pendingWf

end Sys2Proof.Machine
end

