-- ==== Sys2Proof/Certificates/Slice0/Obligations.lean ====
section
/-! DEFINITION. The statements about the machine, each from the rules of spec/ its docstring names. -/

open Sys2Proof Sys2Proof.Machine

/-! ## Encoding -/

/-- Words of each instruction, written from R52's patterns and the field positions of R46 and R48, decode as
the instruction they stand for, and the nearest reserved words do not (R55; vectors E1, E4, E5, E7, E9, E10
and E12 to E17 of 95_test_vectors.md). -/
def Obligations.SpecWordsDecode : Prop :=
  decode 0x90610008 = .instr (.stw 3 1 8) ∧
  decode 0x90A08000 = .instr (.stw 5 0 0x8000) ∧
  decode 0x9421FFA0 = .instr (.stwu 1 1 0xFFA0) ∧
  decode 0x7CC1396E = .instr (.stwux 6 1 7) ∧
  decode 0x7C60212E = .instr (.stwx 3 0 4) ∧
  decode 0x7FFFF92E = .instr (.stwx 31 31 31) ∧
  decode 0x94600008 = .invalidForm .stwu 0x94600008 ∧
  decode 0x7C60216E = .invalidForm .stwux 0x7C60216E ∧
  decode 0x7C61212F = .reservedRc .stwx 0x7C61212F ∧
  decode 0x7C61216F = .reservedRc .stwux 0x7C61216F ∧
  decode 0x7C61212C = .notInSpec 0x7C61212C ∧
  decode 0x80610008 = .notInSpec 0x80610008

/-- The fields of a word at the bit positions of R46 and R48, by the arithmetic R7 gives for them. -/
def Obligations.WordFieldsByArithmetic : Prop :=
  ∀ w : Word,
    (msb0 w 0 5).toNat = w.toNat / 2 ^ 26 ∧
    (rsField w).val = w.toNat / 2 ^ 21 % 32 ∧
    (raField w).val = w.toNat / 2 ^ 16 % 32 ∧
    (rbField w).val = w.toNat / 2 ^ 11 % 32 ∧
    (msb0 w 21 30).toNat = w.toNat / 2 % 1024 ∧
    (msb0 w 31 31).toNat = w.toNat % 2 ∧
    (dField w).toNat = w.toNat % 65536

/-- Decoding the word R54 gives a well-formed instruction gives the instruction back, for every value of
every operand (R54, R55). -/
def Obligations.DecodeEncodeRoundTrip : Prop :=
  ∀ i : Instr, i.wellFormed = true → decode (encode i) = .instr i

/-- Every word the decoder takes as an instruction is the word R54 gives that instruction, and the
instruction is well formed (R54, R55, R57). -/
def Obligations.EncodeDecodeRoundTrip : Prop :=
  ∀ (w : Word) (i : Instr), decode w = .instr i → i.wellFormed = true ∧ encode i = w

/-- The decoder follows R53's table: a word selects an instruction when `w AND mask = match`, and no word
selects two rows. An update form with RA field 0 is selected by its row and is the invalid form (R57). -/
def Obligations.DecoderFollowsOpcodeTable : Prop :=
  ∀ w : Word,
    (w &&& 0xFC000000 = 0x90000000 ↔ ∃ rs ra d, decode w = .instr (.stw rs ra d)) ∧
    (w &&& 0xFC000000 = 0x94000000 ↔
      (∃ rs ra d, decode w = .instr (.stwu rs ra d)) ∨ decode w = .invalidForm .stwu w) ∧
    (w &&& 0xFC0007FF = 0x7C00016E ↔
      (∃ rs ra rb, decode w = .instr (.stwux rs ra rb)) ∨ decode w = .invalidForm .stwux w) ∧
    (w &&& 0xFC0007FF = 0x7C00012E ↔ ∃ rs ra rb, decode w = .instr (.stwx rs ra rb)) ∧
    opcodeRows.Pairwise (fun r q => ¬ (r.selects w = true ∧ q.selects w = true))

/-- Exactly which words each verdict of the decoder is for (R55 to R58): `InvalidForm` for an update row with
RA field 0, `ReservedRc` for extended opcode 151 or 183 with bit 31 set, `NotInSpec` for all the rest. -/
def Obligations.DecoderVerdictsExact : Prop :=
  ∀ w : Word,
    (∀ m v, decode w = .invalidForm m v ↔
      v = w ∧ w.toNat / 2 ^ 16 % 32 = 0 ∧
        ((m = .stwu ∧ w &&& 0xFC000000 = 0x94000000) ∨
         (m = .stwux ∧ w &&& 0xFC0007FF = 0x7C00016E))) ∧
    (∀ m v, decode w = .reservedRc m v ↔
      v = w ∧ ((m = .stwux ∧ w &&& 0xFC0007FF = 0x7C00016F) ∨
               (m = .stwx ∧ w &&& 0xFC0007FF = 0x7C00012F))) ∧
    (∀ v, decode w = .notInSpec v ↔
      v = w ∧ w &&& 0xFC000000 ≠ 0x90000000 ∧ w &&& 0xFC000000 ≠ 0x94000000 ∧
        w &&& 0xFC0007FE ≠ 0x7C00016E ∧ w &&& 0xFC0007FE ≠ 0x7C00012E)

/-- R56: an X-form store word with bit 31 set is the reserved encoding, which the decoder names and the
machine refuses. -/
def Obligations.RecordBitRefused : Prop :=
  (∀ rs ra rb : Reg,
    decode (encode (.stwux rs ra rb) ||| 1) = .reservedRc .stwux (encode (.stwux rs ra rb) ||| 1) ∧
    decode (encode (.stwx rs ra rb) ||| 1) = .reservedRc .stwx (encode (.stwx rs ra rb) ||| 1)) ∧
  ∀ (s : State) (m : Mnemonic) (w v : Word), s.unmarked → s.schedule = [] → s.pc ≠ s.launch.endPc →
    s.pc.toNat % 4 = 0 → tableGet s.launch.text s.pc.toNat = some w → decode w = .reservedRc m v →
    step s = .refused (.reservedRc m)

/-- R57: an update form with RA field 0 is the invalid form, for the decoder and for the meaning; an update
form with RS = RA is not. -/
def Obligations.InvalidUpdateFormsRefused : Prop :=
  (∀ (rs : Reg) (d : BitVec 16) (s : State),
    decode (encode (.stwu rs 0 d)) = .invalidForm .stwu (encode (.stwu rs 0 d)) ∧
    exec (.stwu rs 0 d) s = .refused (.invalidForm .stwu)) ∧
  (∀ (rs rb : Reg) (s : State),
    decode (encode (.stwux rs 0 rb)) = .invalidForm .stwux (encode (.stwux rs 0 rb)) ∧
    exec (.stwux rs 0 rb) s = .refused (.invalidForm .stwux)) ∧
  (∀ (ra rb : Reg) (d : BitVec 16), ra ≠ 0 →
    decode (encode (.stwu ra ra d)) = .instr (.stwu ra ra d) ∧
    decode (encode (.stwux ra ra rb)) = .instr (.stwux ra ra rb))

/-- R27: four bytes in memory order are the word with the first byte most significant, and the decoder reads
that word and leaves the bytes after it. -/
def Obligations.BytesDecodeBigEndian : Prop :=
  (∀ (b0 b1 b2 b3 : Byte) (rest : List Byte) (w : Word),
    w.toNat = b0.toNat * 2 ^ 24 + b1.toNat * 2 ^ 16 + b2.toNat * 2 ^ 8 + b3.toNat →
    decodeBytes (b0 :: b1 :: b2 :: b3 :: rest) = some (decode w, rest)) ∧
  ∀ (w : Word) (rest : List Byte), decodeBytes (bytesOfWord w ++ rest) = some (decode w, rest)

/-! ## The state before the first step, and the step -/

/-- The launch values R24 gives: no reservation, neither mark, one thread (R6's default) and no
cache-inhibited storage (R30's default). The other values are the MODEL's choice: the registers (assumption
1), the program counter, the text, the map and the end address (assumption 2), the granule (assumption 11),
the empty memory (assumption 4), the empty schedule (assumption 10) and no pending store (assumption 12). -/
def Obligations.LaunchValuesBeforeFirstStep : Prop :=
  State.reset.res = [] ∧ State.reset.faulted = none ∧ State.reset.refused = none ∧
  State.reset.numThreads = 1 ∧ (∀ a, State.reset.launch.inhibited a = false) ∧
  (∀ r : Reg, State.reset.readGpr r = 0) ∧ State.reset.pc = 0x00001000 ∧
  State.reset.launch.text = [] ∧ State.reset.launch.endPc = 0x00001004 ∧
  (∀ a < 2 ^ 32, State.reset.launch.mapped a = true) ∧ State.reset.launch.resGranule = 128 ∧
  (∀ a, State.reset.mem.read a = none) ∧ State.reset.pending = [] ∧ State.reset.schedule = []

/-- The state before the first step meets the invariant. -/
def Obligations.ResetMeetsInvariant : Prop := State.reset.Inv

/-- Every step keeps the canonical form of memory (R20), of the reservation table (R19), of the threads
(R86), of the pending stores (R35, R38), and of the launch's text and granule (R6, R21). -/
def Obligations.StepKeepsInvariant : Prop :=
  ∀ s t : State, s.Inv → step s = .next t → t.Inv

/-- A step runs the decoded instruction (R41, R74): at an unmarked thread whose program counter is aligned,
is not `END_PC` and holds a word that decodes to `i`, the step is `exec i`; the same for a thread the
schedule chooses, in the state with that move taken off (R86). -/
def Obligations.StepRunsDecodedInstruction : Prop :=
  ∀ (s : State) (w : Word) (i : Instr), s.unmarked → s.pc ≠ s.launch.endPc → s.pc.toNat % 4 = 0 →
    tableGet s.launch.text s.pc.toNat = some w → decode w = .instr i →
    (s.schedule = [] → step s = exec i s) ∧
    ∀ (s₀ : State) (n : Nat) (rest : List Move), s₀.schedule = .run n :: rest →
      { s₀ with schedule := rest }.switchTo n = some s → step s₀ = exec i s

/-- The state with a word placed for the next step runs it, whatever the state was, and its registers and
memory are those it had (R41, R87; the host's load of a program, assumption 3). -/
def Obligations.PlacedWordRuns : Prop :=
  ∀ (s : State) (w : Word) (i : Instr), decode w = .instr i →
    step (s.placeWord w) = exec i (s.placeWord w) ∧ (s.placeWord w).gpr = s.gpr ∧
    (s.placeWord w).mem = s.mem ∧ (s.placeWord w).res = s.res

/-- Where the fetch and the decoder stop a step, and under which name (R41, R74, R77, R80). -/
def Obligations.FetchAndDecodeStops : Prop :=
  ∀ s : State, s.schedule = [] → s.unmarked → s.pc ≠ s.launch.endPc →
    (s.pc.toNat % 4 ≠ 0 → step s = .refused .misalignedPc) ∧
    (s.pc.toNat % 4 = 0 → tableGet s.launch.text s.pc.toNat = none →
      step s = .refused (.noInstruction s.pc)) ∧
    (s.pc.toNat % 4 = 0 → ∀ w, tableGet s.launch.text s.pc.toNat = some w →
      (∀ m v, decode w = .invalidForm m v → step s = .refused (.invalidForm m)) ∧
      (∀ m v, decode w = .reservedRc m v → step s = .refused (.reservedRc m)) ∧
      (∀ v, decode w = .notInSpec v → step s = .refused (.notInSpec w)))

/-- At `END_PC` nothing is fetched and the thread takes no further step; the state is final when no mark is
set, and only then (R89, R23). -/
def Obligations.EndOfRunTakesNoStep : Prop :=
  ∀ s : State, s.schedule = [] → s.pc = s.launch.endPc →
    (s.unmarked → step s = .fault .runEnded ∧ s.advance = s) ∧
    (∀ t, step s ≠ .next t) ∧ (s.final ↔ s.unmarked)

/-- A stop is sticky and precise (R23, R82): it sets its mark, changes nothing else, and every later step of
the thread answers the same stop and leaves the state as it is. The end of a run sets no mark (R89). -/
def Obligations.StopsAreSticky : Prop :=
  ∀ s : State, s.schedule = [] → (∀ t, step s ≠ .next t) →
    step s.advance = step s ∧ s.advance.advance = s.advance ∧
    ((∃ r, step s = .refused r ∧ s.advance = { s with refused := some r }) ∨
     (∃ r, r ≠ .runEnded ∧ step s = .fault r ∧ s.advance = { s with faulted := some r }) ∨
     (step s = .fault .runEnded ∧ s.advance = s))

/-- Where the text is defined from the program counter up to `END_PC` (R88), every step of the thread keeps
it so, the fetch never refuses, and an unmarked thread is never stopped by its program counter (R15, R41). -/
def Obligations.ReadyTextStaysReady : Prop :=
  ∀ s : State, s.textReady →
    (∀ t, s.threadStep = .next t → t.textReady) ∧ (∀ r, s.fetch ≠ .refused r) ∧
    (s.unmarked → s.threadStep ≠ .refused .misalignedPc ∧ s.threadStep ≠ .refused .pcWrap ∧
      ∀ a, s.threadStep ≠ .refused (.noInstruction a))

/-- Every thread's program counter stays a multiple of 4 (R14, R15). -/
def Obligations.ProgramCountersStayAligned : Prop :=
  ∀ s t : State, s.pc.toNat % 4 = 0 → (∀ c ∈ s.others, c.2.pc.toNat % 4 = 0) → step s = .next t →
    t.pc.toNat % 4 = 0 ∧ ∀ c ∈ t.others, c.2.pc.toNat % 4 = 0

/-! ## What the four instructions do -/

/-- `stw` (R67; R63 to R65): with `base` the literal zero for RA = 0 and `x[RA]` otherwise, it stores the low
word of RS big-endian at the low 32 bits of `base + EXTS(d)`, changes no register, and advances by 4. -/
def Obligations.StwStoresLowWord : Prop :=
  ∀ (s : State) (rs ra : Reg) (d : BitVec 16) (base : DWord) (ea v : BitVec 32),
    base = (if ra = 0 then 0 else s.readGpr ra) →
    ea = (base + d.signExtend 64).setWidth 32 → v = (s.readGpr rs).setWidth 32 →
    s.pc ≠ 0xFFFFFFFC → s.admits ea →
    ∃ t, exec (.stw rs ra d) s = .next t ∧
      (∀ k < 4, t.threadView s.self (ea.toNat + k) = some (BitVec.ofNat 8 (v.toNat / 256 ^ (3 - k)))) ∧
      (∀ r, t.readGpr r = s.readGpr r) ∧ t.pc = s.pc + 4

/-- `stwu` (R68; R64 to R66): it stores the low word of RS, read before RA is written, at the low 32 bits of
`x[RA] + EXTS(d)`, then RA holds that address zero-extended. RA = 0 is the invalid form
(`InvalidUpdateFormsRefused`). -/
def Obligations.StwuStoresAndUpdates : Prop :=
  ∀ (s : State) (rs ra : Reg) (d : BitVec 16) (ea v : BitVec 32), ra ≠ 0 →
    ea = (s.readGpr ra + d.signExtend 64).setWidth 32 → v = (s.readGpr rs).setWidth 32 →
    s.pc ≠ 0xFFFFFFFC → s.admits ea →
    ∃ t, exec (.stwu rs ra d) s = .next t ∧
      (∀ k < 4, t.threadView s.self (ea.toNat + k) = some (BitVec.ofNat 8 (v.toNat / 256 ^ (3 - k)))) ∧
      (∀ r, t.readGpr r = if r = ra then ea.setWidth 64 else s.readGpr r) ∧ t.pc = s.pc + 4

/-- `stwux` (R69; R64 to R66): as `stwu` with the index register RB in place of the displacement. -/
def Obligations.StwuxStoresAndUpdates : Prop :=
  ∀ (s : State) (rs ra rb : Reg) (ea v : BitVec 32), ra ≠ 0 →
    ea = (s.readGpr ra + s.readGpr rb).setWidth 32 → v = (s.readGpr rs).setWidth 32 →
    s.pc ≠ 0xFFFFFFFC → s.admits ea →
    ∃ t, exec (.stwux rs ra rb) s = .next t ∧
      (∀ k < 4, t.threadView s.self (ea.toNat + k) = some (BitVec.ofNat 8 (v.toNat / 256 ^ (3 - k)))) ∧
      (∀ r, t.readGpr r = if r = ra then ea.setWidth 64 else s.readGpr r) ∧ t.pc = s.pc + 4

/-- `stwx` (R71; R63 to R65): as `stw` with the index register RB in place of the displacement; RB = 0 is the
real r0. -/
def Obligations.StwxStoresLowWord : Prop :=
  ∀ (s : State) (rs ra rb : Reg) (base : DWord) (ea v : BitVec 32),
    base = (if ra = 0 then 0 else s.readGpr ra) →
    ea = (base + s.readGpr rb).setWidth 32 → v = (s.readGpr rs).setWidth 32 →
    s.pc ≠ 0xFFFFFFFC → s.admits ea →
    ∃ t, exec (.stwx rs ra rb) s = .next t ∧
      (∀ k < 4, t.threadView s.self (ea.toNat + k) = some (BitVec.ofNat 8 (v.toNat / 256 ^ (3 - k)))) ∧
      (∀ r, t.readGpr r = s.readGpr r) ∧ t.pc = s.pc + 4

/-- The frame of the four instructions (R11, R13, R16, R17, R34): registers but RA of the update forms, the
marks, the launch, the schedule and the threads are unchanged; every byte of memory, and every thread's view
of it, is unchanged outside the four bytes at the instruction's effective address. A thread's view is the
MODEL's own term (assumption 19). -/
def Obligations.StoreFrame : Prop :=
  ∀ (i : Instr) (s t : State), exec i s = .next t →
    (∀ r : Reg, writtenReg i ≠ some r → t.readGpr r = s.readGpr r) ∧
    t.faulted = s.faulted ∧ t.refused = s.refused ∧ t.self = s.self ∧ t.others = s.others ∧
    t.launch = s.launch ∧ t.schedule = s.schedule ∧ t.draws = s.draws + 1 ∧
    ∀ a, (∀ k < 4, a ≠ (s.eaOf i).toNat + k) →
      t.mem.read a = s.mem.read a ∧ ∀ n, t.threadView n a = s.threadView n a

/-- With one hardware thread a store's bytes are in memory when its step completes (R38), big-endian (R25),
and every other byte is as before. -/
def Obligations.SingleThreadStoreReachesMemory : Prop :=
  ∀ (i : Instr) (s t : State) (ea v : BitVec 32), exec i s = .next t → s.others = [] → s.pending = [] →
    ea = s.eaOf i → v = (s.readGpr (sourceReg i)).setWidth 32 →
    (∀ k < 4, t.mem.read (ea.toNat + k) = some (BitVec.ofNat 8 (v.toNat / 256 ^ (3 - k)))) ∧
    t.mem.readWord ea.toNat = some v ∧ t.pending = [] ∧
    ∀ a, (∀ k < 4, a ≠ ea.toNat + k) → t.mem.read a = s.mem.read a

/-- With more than one hardware thread a store's bytes wait to become visible: together when the address is
aligned, each by itself when it is not (R35, R38). That one list of waiting stores serves all other threads is
the MODEL's choice (assumptions 12 and 19). -/
def Obligations.SharedStoreWaitsToBecomeVisible : Prop :=
  ∀ (i : Instr) (s t : State) (ea v : BitVec 32), exec i s = .next t → s.others ≠ [] → ea = s.eaOf i →
    v = (s.readGpr (sourceReg i)).setWidth 32 →
    t.mem = s.mem ∧
    (ea.toNat % 4 = 0 → ∃ p, t.pending = s.pending ++ [p] ∧ p.thread = s.self ∧
      p.cells = (List.range 4).map
        (fun k => (ea.toNat + k, BitVec.ofNat 8 (v.toNat / 256 ^ (3 - k))))) ∧
    (ea.toNat % 4 ≠ 0 → t.pending = s.pending ++ (List.range 4).map
      (fun k => ⟨s.self, [(ea.toNat + k, BitVec.ofNat 8 (v.toNat / 256 ^ (3 - k)))]⟩))

/-- R15: an instruction that completes advances the program counter by exactly 4 (as a number too, at an
aligned program counter), one at 0xFFFFFFFC is refused, and a stop leaves the program counter. -/
def Obligations.SequentialAdvance : Prop :=
  ∀ (i : Instr) (s : State),
    (∀ t, exec i s = .next t → t.pc = s.pc + 4 ∧
      (s.pc.toNat % 4 = 0 → t.pc.toNat = s.pc.toNat + 4)) ∧
    (s.pc = 0xFFFFFFFC → i.wellFormed = true → exec i s = .refused .pcWrap) ∧
    ((∀ t, exec i s ≠ .next t) → (s.record (exec i s)).pc = s.pc)

/-- Every stop of a store, in the order of the checks (R34, R80): the invalid form, the program counter's
wrap, the address's wrap, a store into the text, a misaligned store to cache-inhibited storage, an address
that does not exist. -/
def Obligations.StoreStopsInOrder : Prop :=
  ∀ (i : Instr) (s : State) (ea : Addr), ea = s.eaOf i →
    (i.wellFormed = false → exec i s = .refused (.invalidForm i.mnemonic)) ∧
    (i.wellFormed = true →
      (s.pc = 0xFFFFFFFC → exec i s = .refused .pcWrap) ∧
      (s.pc ≠ 0xFFFFFFFC →
        (0xFFFFFFFC < ea.toNat → exec i s = .refused (.addressWrap ea)) ∧
        (ea.toNat ≤ 0xFFFFFFFC →
          ((∃ c ∈ s.launch.text, ∃ k < 4, c.1 ≤ ea.toNat + k ∧ ea.toNat + k ≤ c.1 + 3) →
            exec i s = .refused (.storeToText ea)) ∧
          ((∀ c ∈ s.launch.text, ∀ k < 4, ¬ (c.1 ≤ ea.toNat + k ∧ ea.toNat + k ≤ c.1 + 3)) →
            (ea.toNat % 4 ≠ 0 ∧ (∃ k < 4, s.launch.inhibited (ea.toNat + k) = true) →
              exec i s = .refused (.misalignedCacheInhibited ea)) ∧
            (ea.toNat % 4 = 0 ∨ (∀ k < 4, s.launch.inhibited (ea.toNat + k) = false) →
              (∃ k < 4, s.launch.mapped (ea.toNat + k) = false) →
              exec i s = .fault (.storageFault ea))))))

/-- R28: a word store needs no alignment. At any address the admission checks of R34 pass, aligned or not,
the store primitive completes and the four bytes are those of the value, big-endian. -/
def Obligations.WordStoreNeedsNoAlignment : Prop :=
  ∀ (s : State) (ea : Addr) (v : Word), s.admits ea →
    ∃ t, s.memWrite ea v = .next t ∧
      ∀ k < 4, t.threadView s.self (ea.toNat + k) = some (BitVec.ofNat 8 (v.toNat / 256 ^ (3 - k)))

/-- R30: a misaligned store touching cache-inhibited storage is refused, an aligned one is performed as any
other, and by default no storage is cache-inhibited. -/
def Obligations.MisalignedCacheInhibitedRefused : Prop :=
  (∀ (i : Instr) (s : State) (ea v : BitVec 32), ea = s.eaOf i →
    v = (s.readGpr (sourceReg i)).setWidth 32 → i.wellFormed = true → s.pc ≠ 0xFFFFFFFC →
    ea.toNat ≤ 0xFFFFFFFC → (∀ k < 4, s.launch.inText (ea.toNat + k) = false) →
    (ea.toNat % 4 ≠ 0 → (∃ k < 4, s.launch.inhibited (ea.toNat + k) = true) →
      exec i s = .refused (.misalignedCacheInhibited ea)) ∧
    (ea.toNat % 4 = 0 → (∀ k < 4, s.launch.mapped (ea.toNat + k) = true) →
      ∃ t, exec i s = .next t ∧
        ∀ k < 4, t.threadView s.self (ea.toNat + k) = some (BitVec.ofNat 8 (v.toNat / 256 ^ (3 - k))))) ∧
  ∀ a, State.reset.launch.inhibited a = false

/-- R33: a store any of whose four bytes lies outside `MEM_MAP` faults with its address, where no earlier
check of R34 stops it. -/
def Obligations.UnmappedStoreFaults : Prop :=
  ∀ (i : Instr) (s : State) (ea : Addr), ea = s.eaOf i → i.wellFormed = true → s.pc ≠ 0xFFFFFFFC →
    ea.toNat ≤ 0xFFFFFFFC → (∀ k < 4, s.launch.inText (ea.toNat + k) = false) →
    (ea.toNat % 4 = 0 ∨ ∀ k < 4, s.launch.inhibited (ea.toNat + k) = false) →
    (∃ k < 4, ∀ g ∈ s.launch.memMap, ¬ (g.base ≤ ea.toNat + k ∧ ea.toNat + k < g.base + g.size)) →
    exec i s = .fault (.storageFault ea)

/-- R42: a store that would change an instruction is refused, and no step changes the text, so a store is
never seen by a fetch. -/
def Obligations.StoresNeverReachText : Prop :=
  (∀ (i : Instr) (s : State) (ea : Addr), ea = s.eaOf i → i.wellFormed = true → s.pc ≠ 0xFFFFFFFC →
    ea.toNat ≤ 0xFFFFFFFC →
    (∃ c ∈ s.launch.text, ∃ k < 4, c.1 ≤ ea.toNat + k ∧ ea.toNat + k ≤ c.1 + 3) →
    exec i s = .refused (.storeToText ea)) ∧
  ∀ s t : State, step s = .next t → t.launch = s.launch

/-- The reservations after a store (R39): none is added; one on a granule the store does not touch stays;
one of another thread on a granule it touches is gone. What becomes of the storing thread's own is left
open, and this says nothing of it. -/
def Obligations.StoreKillsReservations : Prop :=
  ∀ (i : Instr) (s t : State) (g : Nat → Nat), exec i s = .next t →
    (∀ a, g a = a - a % s.launch.resGranule) →
    (∀ r ∈ t.res, r ∈ s.res) ∧
    (∀ r ∈ s.res, r.granule ≠ g (s.eaOf i).toNat → r.granule ≠ g ((s.eaOf i).toNat + 3) → r ∈ t.res) ∧
    (∀ r ∈ t.res, r.thread ≠ s.self →
      r.granule ≠ g (s.eaOf i).toNat ∧ r.granule ≠ g ((s.eaOf i).toNat + 3))

/-- The literal zero of the RA0 operand is not r0 (R13, R51, R63): with RA = 0, `stw` and `stwx` do the same
whatever r0 holds, unless r0 is their RS or RB, where it is an ordinary register. -/
def Obligations.LiteralZeroBaseIgnoresR0 : Prop :=
  ∀ (s t : State) (rs : Reg) (x : DWord), rs ≠ 0 →
    (∀ d : BitVec 16, exec (.stw rs 0 d) s = .next t →
      exec (.stw rs 0 d) (s.writeGpr 0 x) = .next (t.writeGpr 0 x)) ∧
    (∀ rb : Reg, rb ≠ 0 → exec (.stwx rs 0 rb) s = .next t →
      exec (.stwx rs 0 rb) (s.writeGpr 0 x) = .next (t.writeGpr 0 x)) ∧
    (∀ rb : Reg, (s.writeGpr 0 x).eaStwx rb 0 = effectiveAddress ((s.writeGpr 0 x).baseOrZero rb) x) ∧
    (s.writeGpr 0 x).storedValue 0 = x.setWidth 32

/-- R70: in the update forms the operands are read before RA is written. With RS = RA the old low word is
stored; with RB = RA the old value is both addends; with RS = RB nothing special happens. -/
def Obligations.SameRegisterUpdateForms : Prop :=
  ∀ (s : State) (ra : Reg), ra ≠ 0 → s.pc ≠ 0xFFFFFFFC →
    (∀ (d : BitVec 16) (ea : Addr), ea = (s.readGpr ra + d.signExtend 64).setWidth 32 → s.admits ea →
      ∃ t, exec (.stwu ra ra d) s = .next t ∧ t.readGpr ra = ea.setWidth 64 ∧
        ∀ k < 4, t.threadView s.self (ea.toNat + k) =
          some (BitVec.ofNat 8 ((s.readGpr ra).toNat / 256 ^ (3 - k)))) ∧
    (∀ (rb : Reg) (ea : Addr), ea = (s.readGpr ra + s.readGpr rb).setWidth 32 → s.admits ea →
      ∃ t, exec (.stwux ra ra rb) s = .next t ∧ t.readGpr ra = ea.setWidth 64 ∧
        ∀ k < 4, t.threadView s.self (ea.toNat + k) =
          some (BitVec.ofNat 8 ((s.readGpr ra).toNat / 256 ^ (3 - k)))) ∧
    (∀ (rs : Reg) (ea : Addr), ea.toNat = 2 * (s.readGpr ra).toNat % 2 ^ 32 → s.admits ea →
      ∃ t, exec (.stwux rs ra ra) s = .next t ∧ t.readGpr ra = ea.setWidth 64 ∧
        ∀ k < 4, t.threadView s.self (ea.toNat + k) =
          some (BitVec.ofNat 8 ((s.readGpr rs).toNat / 256 ^ (3 - k)))) ∧
    (∀ (rs : Reg) (ea : Addr), ea = (s.readGpr ra + s.readGpr rs).setWidth 32 → s.admits ea →
      ∃ t, exec (.stwux rs ra rs) s = .next t ∧ t.readGpr ra = ea.setWidth 64 ∧
        (rs ≠ ra → t.readGpr rs = s.readGpr rs) ∧
        ∀ k < 4, t.threadView s.self (ea.toNat + k) =
          some (BitVec.ofNat 8 ((s.readGpr rs).toNat / 256 ^ (3 - k))))

/-- The frame-allocation idiom `stwu r1, -framesize(r1)` (R73, R90): r1 becomes the low word of the old stack
pointer less the frame size, zero-extended, and the word there is the old stack pointer's low word. -/
def Obligations.FrameAllocationIdiom : Prop :=
  ∀ (s : State) (frame : Nat) (ea : Addr), 0 < frame → frame ≤ 32768 → s.pc ≠ 0xFFFFFFFC →
    ea = (s.readGpr 1 - BitVec.ofNat 64 frame).setWidth 32 → s.admits ea →
    ∃ t, exec (.stwu 1 1 (BitVec.ofNat 16 (65536 - frame))) s = .next t ∧
      t.readGpr 1 = ea.setWidth 64 ∧
      (∀ k < 4, t.threadView s.self (ea.toNat + k) =
        some (BitVec.ofNat 8 ((s.readGpr 1).toNat / 256 ^ (3 - k)))) ∧
      ∀ r, r ≠ 1 → t.readGpr r = s.readGpr r

/-- Address arithmetic is in effect modulo 2^32 (R64, R72): the effective address is the sum of the two low
words modulo 2^32, and with a displacement the base plus its signed value (R50). -/
def Obligations.EffectiveAddressModulo : Prop :=
  (∀ base addend : DWord, (effectiveAddress base addend).toNat =
    (base.toNat % 2 ^ 32 + addend.toNat % 2 ^ 32) % 2 ^ 32) ∧
  ∀ (base : DWord) (d : BitVec 16), ((effectiveAddress base (sext64 d)).toNat : Int) =
    ((base.toNat : Int) + d.toInt) % 2 ^ 32

/-- The high words of the registers have no effect (R32, R64, R65, R72): from two states alike but for them,
an instruction that completes in one completes in the other, and the two next states are again alike but for
them. -/
def Obligations.HighWordsHaveNoEffect : Prop :=
  ∀ (i : Instr) (s₁ s₂ t₁ : State), s₂ = { s₁ with gpr := s₂.gpr } →
    (∀ r : Reg, (s₁.readGpr r).setWidth 32 = (s₂.readGpr r).setWidth 32) → exec i s₁ = .next t₁ →
    ∃ t₂, exec i s₂ = .next t₂ ∧ t₂ = { t₁ with gpr := t₂.gpr } ∧
      ∀ r : Reg, (t₁.readGpr r).setWidth 32 = (t₂.readGpr r).setWidth 32

/-! ## Memory and the reservation granule -/

/-- R26: what a mixed-width view of a stored word sees, and what a later word store at EA+2 leaves of it. -/
def Obligations.MixedWidthViewOfStoredWord : Prop :=
  ∀ (m : Memory) (ea ea₂ : Addr) (v u : Word),
    (∀ k < 4, (m.writeWord ea v).read (ea.toNat + k) =
      some (BitVec.ofNat 8 (v.toNat / 2 ^ (8 * (3 - k))))) ∧
    (m.writeWord ea v).readHalf ea.toNat = some (BitVec.ofNat 16 (v.toNat / 2 ^ 16)) ∧
    (m.writeWord ea v).readHalf (ea.toNat + 2) = some (BitVec.ofNat 16 (v.toNat % 65536)) ∧
    (ea₂.toNat = ea.toNat + 2 →
      (∀ k < 2, ((m.writeWord ea v).writeWord ea₂ u).read (ea.toNat + k) =
        some (BitVec.ofNat 8 (v.toNat / 2 ^ (8 * (3 - k))))) ∧
      (∀ k < 2, ((m.writeWord ea v).writeWord ea₂ u).read (ea.toNat + 2 + k) =
        some (BitVec.ofNat 8 (u.toNat / 2 ^ (8 * (3 - k))))))

/-- Storing the same word twice at the same address leaves the same memory as storing it once (R36), for a
memory in its canonical form. -/
def Obligations.StoringTwiceIsStoringOnce : Prop :=
  ∀ (m : Memory) (ea : Addr) (v : Word), m.wf →
    (m.writeWord ea v).writeWord ea v = m.writeWord ea v

/-- A word store touches two cache lines exactly when `EA mod 128` is 125, 126 or 127 (R29, R95). -/
def Obligations.LineStraddle : Prop :=
  ∀ ea : Addr,
    (straddlesLine ea = true ↔
      ea.toNat % 128 = 125 ∨ ea.toNat % 128 = 126 ∨ ea.toNat % 128 = 127) ∧
    (straddlesLine ea = true ↔ ea.toNat / 128 ≠ (ea.toNat + 3) / 128)

/-! ## Several hardware threads -/

/-- Choosing a thread changes no thread (R86): the chosen thread runs with the registers, program counter and
marks it had, every thread keeps its own, and what the threads share is as before. -/
def Obligations.ChoosingThreadKeepsThreads : Prop :=
  ∀ (s : State) (n : Nat) (th : Thread), s.contextOf n = some th →
    ∃ u, s.switchTo n = some u ∧ u.self = n ∧ u.context = th ∧ (∀ k, u.contextOf k = s.contextOf k) ∧
      u.mem = s.mem ∧ u.pending = s.pending ∧ u.res = s.res ∧ u.launch = s.launch

/-- A step leaves every thread but the one that moves as it was: registers, program counter and marks (R86);
a store's becoming visible leaves every thread so. -/
def Obligations.StepLeavesOtherThreads : Prop :=
  ∀ (s t : State) (k : Nat), step s = .next t → (s.schedule = [] → k ≠ s.self) →
    (∀ n rest, s.schedule = .run n :: rest → k ≠ n) → t.contextOf k = s.contextOf k

/-- A pending store that may become visible does, whole: its bytes are in memory, every other byte and every
thread are as before, and it no longer waits (R35, R38). One that may not stays. That it becomes visible to
all other threads at one moment is the MODEL's choice (assumption 19): the spec promises no such thing. -/
def Obligations.PendingStoreBecomesVisible : Prop :=
  ∀ (s : State) (k : Nat) (rest : List Move) (p : PendingStore), s.schedule = .commit k :: rest →
    s.pending[k]? = some p → tableSorted p.cells →
    ∃ t, step s = .next t ∧ t.context = s.context ∧ t.others = s.others ∧ t.res = s.res ∧
      (mayCommit s.pending k p = true →
        t.pending = s.pending.eraseIdx k ∧
        (∀ a b, tableGet p.cells a = some b → t.mem.read a = some b) ∧
        ∀ a, tableGet p.cells a = none → t.mem.read a = s.mem.read a) ∧
      (mayCommit s.pending k p = false → t.pending = s.pending ∧ t.mem = s.mem)

/-- A thread's own stores stay in its program order, and its last store to a byte wins (R38): a pending
store's becoming visible does not change what its own thread sees. Views and moves are the MODEL's own terms
(assumptions 12 and 19). -/
def Obligations.CommitKeepsThreadView : Prop :=
  ∀ (s : State) (k : Nat) (p : PendingStore) (a : Nat), s.pending[k]? = some p → tableSorted p.cells →
    (s.commit k).threadView p.thread a = s.threadView p.thread a

/-- Right after a misaligned store, where nothing at all was pending before it, each of the four bytes waits by
itself and may be the first of them to become visible (from R35). This says nothing of which byte follows the
first. The move itself, at one moment for all other threads, is the MODEL's choice (assumptions 12 and 19). -/
def Obligations.EachMisalignedByteMayBecomeVisibleFirst : Prop :=
  ∀ (i : Instr) (s t : State), exec i s = .next t → s.others ≠ [] → s.pending = [] →
    (s.eaOf i).toNat % 4 ≠ 0 →
    ∀ k < 4, ∃ p, t.pending[k]? = some p ∧ mayCommit t.pending k p = true ∧
      p.cells.map Prod.fst = [(s.eaOf i).toNat + k]
end

