-- ==== Sys2Proof/Laws/State.lean ====
section
/-! SUPPORT. One lemma per field per update of the state. -/

namespace Sys2Proof.Machine

/-! ## writeGpr -/

@[simp] theorem State.writeGpr_gpr (s : State) (r : Reg) (v : DWord) :
    (s.writeGpr r v).gpr = s.gpr.set r.val v r.isLt := rfl

@[simp] theorem State.writeGpr_pc (s : State) (r : Reg) (v : DWord) :
    (s.writeGpr r v).pc = s.pc := rfl

@[simp] theorem State.writeGpr_faulted (s : State) (r : Reg) (v : DWord) :
    (s.writeGpr r v).faulted = s.faulted := rfl

@[simp] theorem State.writeGpr_refused (s : State) (r : Reg) (v : DWord) :
    (s.writeGpr r v).refused = s.refused := rfl

@[simp] theorem State.writeGpr_self (s : State) (r : Reg) (v : DWord) :
    (s.writeGpr r v).self = s.self := rfl

@[simp] theorem State.writeGpr_others (s : State) (r : Reg) (v : DWord) :
    (s.writeGpr r v).others = s.others := rfl

@[simp] theorem State.writeGpr_mem (s : State) (r : Reg) (v : DWord) :
    (s.writeGpr r v).mem = s.mem := rfl

@[simp] theorem State.writeGpr_pending (s : State) (r : Reg) (v : DWord) :
    (s.writeGpr r v).pending = s.pending := rfl

@[simp] theorem State.writeGpr_res (s : State) (r : Reg) (v : DWord) :
    (s.writeGpr r v).res = s.res := rfl

@[simp] theorem State.writeGpr_draws (s : State) (r : Reg) (v : DWord) :
    (s.writeGpr r v).draws = s.draws := rfl

@[simp] theorem State.writeGpr_schedule (s : State) (r : Reg) (v : DWord) :
    (s.writeGpr r v).schedule = s.schedule := rfl

@[simp] theorem State.writeGpr_launch (s : State) (r : Reg) (v : DWord) :
    (s.writeGpr r v).launch = s.launch := rfl

/-! ## advancePc -/

@[simp] theorem State.advancePc_gpr (s : State) :
    s.advancePc.gpr = s.gpr := rfl

@[simp] theorem State.advancePc_pc (s : State) :
    s.advancePc.pc = s.pc + 4 := rfl

@[simp] theorem State.advancePc_faulted (s : State) :
    s.advancePc.faulted = s.faulted := rfl

@[simp] theorem State.advancePc_refused (s : State) :
    s.advancePc.refused = s.refused := rfl

@[simp] theorem State.advancePc_self (s : State) :
    s.advancePc.self = s.self := rfl

@[simp] theorem State.advancePc_others (s : State) :
    s.advancePc.others = s.others := rfl

@[simp] theorem State.advancePc_mem (s : State) :
    s.advancePc.mem = s.mem := rfl

@[simp] theorem State.advancePc_pending (s : State) :
    s.advancePc.pending = s.pending := rfl

@[simp] theorem State.advancePc_res (s : State) :
    s.advancePc.res = s.res := rfl

@[simp] theorem State.advancePc_draws (s : State) :
    s.advancePc.draws = s.draws := rfl

@[simp] theorem State.advancePc_schedule (s : State) :
    s.advancePc.schedule = s.schedule := rfl

@[simp] theorem State.advancePc_launch (s : State) :
    s.advancePc.launch = s.launch := rfl

/-! ## killReservations -/

@[simp] theorem State.killReservations_gpr (s : State) (ea : Addr) :
    (s.killReservations ea).gpr = s.gpr := rfl

@[simp] theorem State.killReservations_pc (s : State) (ea : Addr) :
    (s.killReservations ea).pc = s.pc := rfl

@[simp] theorem State.killReservations_faulted (s : State) (ea : Addr) :
    (s.killReservations ea).faulted = s.faulted := rfl

@[simp] theorem State.killReservations_refused (s : State) (ea : Addr) :
    (s.killReservations ea).refused = s.refused := rfl

@[simp] theorem State.killReservations_self (s : State) (ea : Addr) :
    (s.killReservations ea).self = s.self := rfl

@[simp] theorem State.killReservations_others (s : State) (ea : Addr) :
    (s.killReservations ea).others = s.others := rfl

@[simp] theorem State.killReservations_mem (s : State) (ea : Addr) :
    (s.killReservations ea).mem = s.mem := rfl

@[simp] theorem State.killReservations_pending (s : State) (ea : Addr) :
    (s.killReservations ea).pending = s.pending := rfl

@[simp] theorem State.killReservations_res (s : State) (ea : Addr) :
    (s.killReservations ea).res = s.res.filter (s.keepsReservation ea) := rfl

@[simp] theorem State.killReservations_draws (s : State) (ea : Addr) :
    (s.killReservations ea).draws = s.draws + 1 := rfl

@[simp] theorem State.killReservations_schedule (s : State) (ea : Addr) :
    (s.killReservations ea).schedule = s.schedule := rfl

@[simp] theorem State.killReservations_launch (s : State) (ea : Addr) :
    (s.killReservations ea).launch = s.launch := rfl

/-! ## updateBase -/

@[simp] theorem State.updateBase_gpr (s : State) (r : Reg) (ea : Addr) :
    (s.updateBase r ea).gpr = s.gpr.set r.val (zext64 ea) r.isLt := rfl

@[simp] theorem State.updateBase_pc (s : State) (r : Reg) (ea : Addr) :
    (s.updateBase r ea).pc = s.pc := rfl

@[simp] theorem State.updateBase_faulted (s : State) (r : Reg) (ea : Addr) :
    (s.updateBase r ea).faulted = s.faulted := rfl

@[simp] theorem State.updateBase_refused (s : State) (r : Reg) (ea : Addr) :
    (s.updateBase r ea).refused = s.refused := rfl

@[simp] theorem State.updateBase_self (s : State) (r : Reg) (ea : Addr) :
    (s.updateBase r ea).self = s.self := rfl

@[simp] theorem State.updateBase_others (s : State) (r : Reg) (ea : Addr) :
    (s.updateBase r ea).others = s.others := rfl

@[simp] theorem State.updateBase_mem (s : State) (r : Reg) (ea : Addr) :
    (s.updateBase r ea).mem = s.mem := rfl

@[simp] theorem State.updateBase_pending (s : State) (r : Reg) (ea : Addr) :
    (s.updateBase r ea).pending = s.pending := rfl

@[simp] theorem State.updateBase_res (s : State) (r : Reg) (ea : Addr) :
    (s.updateBase r ea).res = s.res := rfl

@[simp] theorem State.updateBase_draws (s : State) (r : Reg) (ea : Addr) :
    (s.updateBase r ea).draws = s.draws := rfl

@[simp] theorem State.updateBase_schedule (s : State) (r : Reg) (ea : Addr) :
    (s.updateBase r ea).schedule = s.schedule := rfl

@[simp] theorem State.updateBase_launch (s : State) (r : Reg) (ea : Addr) :
    (s.updateBase r ea).launch = s.launch := rfl

/-! ## putWord -/

@[simp] theorem State.putWord_gpr (s : State) (ea : Addr) (v : Word) :
    (s.putWord ea v).gpr = s.gpr := by
  unfold State.putWord
  split <;> rfl

@[simp] theorem State.putWord_pc (s : State) (ea : Addr) (v : Word) :
    (s.putWord ea v).pc = s.pc := by
  unfold State.putWord
  split <;> rfl

@[simp] theorem State.putWord_faulted (s : State) (ea : Addr) (v : Word) :
    (s.putWord ea v).faulted = s.faulted := by
  unfold State.putWord
  split <;> rfl

@[simp] theorem State.putWord_refused (s : State) (ea : Addr) (v : Word) :
    (s.putWord ea v).refused = s.refused := by
  unfold State.putWord
  split <;> rfl

@[simp] theorem State.putWord_self (s : State) (ea : Addr) (v : Word) :
    (s.putWord ea v).self = s.self := by
  unfold State.putWord
  split <;> rfl

@[simp] theorem State.putWord_others (s : State) (ea : Addr) (v : Word) :
    (s.putWord ea v).others = s.others := by
  unfold State.putWord
  split <;> rfl

@[simp] theorem State.putWord_res (s : State) (ea : Addr) (v : Word) :
    (s.putWord ea v).res = s.res := by
  unfold State.putWord
  split <;> rfl

@[simp] theorem State.putWord_draws (s : State) (ea : Addr) (v : Word) :
    (s.putWord ea v).draws = s.draws := by
  unfold State.putWord
  split <;> rfl

@[simp] theorem State.putWord_schedule (s : State) (ea : Addr) (v : Word) :
    (s.putWord ea v).schedule = s.schedule := by
  unfold State.putWord
  split <;> rfl

@[simp] theorem State.putWord_launch (s : State) (ea : Addr) (v : Word) :
    (s.putWord ea v).launch = s.launch := by
  unfold State.putWord
  split <;> rfl

/-! ## commit -/

@[simp] theorem State.commit_gpr (s : State) (k : Nat) :
    (s.commit k).gpr = s.gpr := by
  unfold State.commit
  repeat' split
  all_goals rfl

@[simp] theorem State.commit_pc (s : State) (k : Nat) :
    (s.commit k).pc = s.pc := by
  unfold State.commit
  repeat' split
  all_goals rfl

@[simp] theorem State.commit_faulted (s : State) (k : Nat) :
    (s.commit k).faulted = s.faulted := by
  unfold State.commit
  repeat' split
  all_goals rfl

@[simp] theorem State.commit_refused (s : State) (k : Nat) :
    (s.commit k).refused = s.refused := by
  unfold State.commit
  repeat' split
  all_goals rfl

@[simp] theorem State.commit_self (s : State) (k : Nat) :
    (s.commit k).self = s.self := by
  unfold State.commit
  repeat' split
  all_goals rfl

@[simp] theorem State.commit_others (s : State) (k : Nat) :
    (s.commit k).others = s.others := by
  unfold State.commit
  repeat' split
  all_goals rfl

@[simp] theorem State.commit_res (s : State) (k : Nat) :
    (s.commit k).res = s.res := by
  unfold State.commit
  repeat' split
  all_goals rfl

@[simp] theorem State.commit_draws (s : State) (k : Nat) :
    (s.commit k).draws = s.draws := by
  unfold State.commit
  repeat' split
  all_goals rfl

@[simp] theorem State.commit_schedule (s : State) (k : Nat) :
    (s.commit k).schedule = s.schedule := by
  unfold State.commit
  repeat' split
  all_goals rfl

@[simp] theorem State.commit_launch (s : State) (k : Nat) :
    (s.commit k).launch = s.launch := by
  unfold State.commit
  repeat' split
  all_goals rfl

/-! ## Registers read back -/

/-- A register read after a register write (R10). -/
@[simp] theorem State.readGpr_writeGpr (s : State) (r q : Reg) (v : DWord) :
    (s.writeGpr r v).readGpr q = if r = q then v else s.readGpr q := by
  simp only [State.readGpr, State.writeGpr, Vector.get_eq_getElem, Vector.getElem_set, Fin.ext_iff]

@[simp] theorem State.readGpr_updateBase (s : State) (r q : Reg) (ea : Addr) :
    (s.updateBase r ea).readGpr q = if r = q then zext64 ea else s.readGpr q :=
  s.readGpr_writeGpr r q _

@[simp] theorem State.readGpr_advancePc (s : State) (q : Reg) :
    s.advancePc.readGpr q = s.readGpr q := rfl

@[simp] theorem State.readGpr_killReservations (s : State) (ea : Addr) (q : Reg) :
    (s.killReservations ea).readGpr q = s.readGpr q := rfl

@[simp] theorem State.readGpr_putWord (s : State) (ea : Addr) (v : Word) (q : Reg) :
    (s.putWord ea v).readGpr q = s.readGpr q := by
  simp [State.readGpr]

end Sys2Proof.Machine
end

