-- ==== Sys2Proof/Laws/Table.lean ====
section
/-! SUPPORT. The laws of tables and of memory: what a read gives after a write, and that every operation
keeps the canonical form. -/

namespace Sys2Proof.Machine

variable {α : Type}

@[simp] theorem tableGet_nil (a : Nat) : tableGet ([] : Table α) a = none := rfl

@[simp] theorem tableGet_cons (c : Nat × α) (m : Table α) (a : Nat) :
    tableGet (c :: m) a = if c.1 = a then some c.2 else tableGet m a := rfl

/-- A read after a write, at every key of every table. -/
theorem tableGet_tableSet (m : Table α) (a b : Nat) (x : α) :
    tableGet (tableSet m a x) b = if a = b then some x else tableGet m b := by
  induction m with
  | nil => rfl
  | cons c m ih =>
    obtain ⟨k, y⟩ := c
    simp only [tableSet]
    split
    · simp
    · split
      · subst_vars
        by_cases h : k = b <;> simp [h]
      · rw [tableGet_cons, tableGet_cons, ih]
        split <;> split <;> simp_all

/-- A read after an erasure. -/
theorem tableGet_tableErase (m : Table α) (a b : Nat) :
    tableGet (tableErase m a) b = if a = b then none else tableGet m b := by
  unfold tableErase
  induction m with
  | nil => simp
  | cons c m ih =>
    by_cases hc : c.1 = a
    · rw [List.filter_cons_of_neg (by simpa using hc), ih, tableGet_cons]
      split <;> simp_all
    · rw [List.filter_cons_of_pos (by simpa using hc), tableGet_cons, tableGet_cons, ih]
      split <;> split <;> simp_all

/-- The pairs of a table after a write are its old ones and the new one. -/
theorem mem_tableSet (m : Table α) (a : Nat) (x : α) (c : Nat × α) (h : c ∈ tableSet m a x) :
    c = (a, x) ∨ c ∈ m := by
  induction m with
  | nil => simpa [tableSet] using h
  | cons d m ih =>
    obtain ⟨k, y⟩ := d
    simp only [tableSet] at h
    split at h
    · simpa using h
    · split at h
      · rcases List.mem_cons.1 h with h | h
        · exact .inl h
        · exact .inr (List.mem_cons_of_mem _ h)
      · rcases List.mem_cons.1 h with h | h
        · exact .inr (h ▸ List.mem_cons_self)
        · exact (ih h).imp id (List.mem_cons_of_mem _)

/-- A write keeps the keys rising. -/
theorem tableSet_sorted (m : Table α) (a : Nat) (x : α) (h : tableSorted m) :
    tableSorted (tableSet m a x) := by
  induction m with
  | nil => simp [tableSet, tableSorted]
  | cons d m ih =>
    obtain ⟨k, y⟩ := d
    simp only [tableSorted, List.map_cons, List.pairwise_cons] at h ih ⊢
    simp only [tableSet]
    split
    · rename_i hak
      simp only [List.map_cons, List.pairwise_cons, List.mem_cons]
      refine ⟨?_, h⟩
      rintro b (rfl | hb)
      · exact hak
      · exact hak.trans (h.1 b hb)
    · split
      · subst_vars
        simpa using h
      · rename_i hak hne
        simp only [List.map_cons, List.pairwise_cons]
        refine ⟨fun b hb => ?_, ih h.2⟩
        obtain ⟨c, hc, rfl⟩ := List.mem_map.1 hb
        rcases mem_tableSet m a x c hc with rfl | hc
        · show k < a
          omega
        · exact h.1 _ (List.mem_map_of_mem hc)

/-- An erasure keeps the keys rising. -/
theorem tableErase_sorted (m : Table α) (a : Nat) (h : tableSorted m) :
    tableSorted (tableErase m a) :=
  h.sublist (List.filter_sublist.map Prod.fst)

/-- The pairs of a table after an erasure are its old ones with other keys. -/
@[simp] theorem mem_tableErase (m : Table α) (a : Nat) (c : Nat × α) :
    c ∈ tableErase m a ↔ c ∈ m ∧ c.1 ≠ a := by
  simp [tableErase]

/-! ## Memory -/

/-- A byte read after a byte write. -/
theorem Memory.read_write (m : Memory) (a b : Nat) (x : Byte) :
    (m.write a x).read b = if a = b then some x else m.read b :=
  tableGet_tableSet m a b x

/-- The four bytes of a word store and every other address, read after it (R25, R34). -/
theorem Memory.read_writeWord (m : Memory) (ea : Addr) (v : Word) (b : Nat) :
    (m.writeWord ea v).read b =
      if ea.toNat + 3 = b then some (byteOfWord v 3)
      else if ea.toNat + 2 = b then some (byteOfWord v 2)
      else if ea.toNat + 1 = b then some (byteOfWord v 1)
      else if ea.toNat = b then some (byteOfWord v 0)
      else m.read b := by
  simp [Memory.writeWord, Memory.writeCells, wordCells, Memory.read_write]

/-- A byte write at a 32-bit address keeps memory's canonical form. -/
theorem Memory.write_wf (m : Memory) (a : Nat) (x : Byte) (h : m.wf) (ha : a < Config.addressLimit) :
    (m.write a x).wf := by
  refine ⟨tableSet_sorted m a x h.1, fun c hc => ?_⟩
  rcases mem_tableSet m a x c hc with rfl | hc
  · exact ha
  · exact h.2 c hc

/-- Writing cells at 32-bit addresses keeps memory's canonical form. -/
theorem Memory.writeCells_wf (m : Memory) (cells : Table Byte) (h : m.wf)
    (hc : ∀ c ∈ cells, c.1 < Config.addressLimit) : (m.writeCells cells).wf := by
  induction cells generalizing m with
  | nil => exact h
  | cons c cells ih =>
    exact ih (m.write c.1 c.2) (Memory.write_wf m c.1 c.2 h (hc c List.mem_cons_self))
      fun d hd => hc d (List.mem_cons_of_mem _ hd)

/-- The bytes of a word store whose address is admitted by R34 step 1 have 32-bit addresses. -/
theorem wordCells_bound (ea : Addr) (v : Word) (h : ea ≤ Config.lastWordAddress) :
    ∀ c ∈ wordCells ea v, c.1 < Config.addressLimit := by
  have h' : ea.toNat ≤ 0xFFFFFFFC := BitVec.le_def.1 h
  simp only [wordCells, Config.addressLimit, List.mem_cons, List.not_mem_nil, or_false]
  rintro c (rfl | rfl | rfl | rfl) <;> simp <;> omega

/-- A word store that passes R34 step 1 keeps memory's canonical form. -/
theorem Memory.writeWord_wf (m : Memory) (ea : Addr) (v : Word) (h : m.wf)
    (hea : ea ≤ Config.lastWordAddress) : (m.writeWord ea v).wf :=
  Memory.writeCells_wf m _ h (wordCells_bound ea v hea)

end Sys2Proof.Machine
end

