-- ==== Sys2Proof/Laws/Ops.lean ====
section
/-! SUPPORT. What each shared operation can do, said once: when it answers a next state, and which. -/

namespace Sys2Proof.Machine

/-- The four addresses of a word store, one by one. -/
theorem forall_lt_four {P : Nat → Prop} : (∀ k < 4, P k) ↔ P 0 ∧ P 1 ∧ P 2 ∧ P 3 := by
  constructor
  · intro h
    exact ⟨h 0 (by omega), h 1 (by omega), h 2 (by omega), h 3 (by omega)⟩
  · rintro ⟨h0, h1, h2, h3⟩ k hk
    interval_cases k <;> assumption

/-- The admission checks of R34, one `if` of the store primitive each. -/
theorem State.admits_iff (s : State) (ea : Addr) :
    s.admits ea ↔
      ¬ Config.lastWordAddress < ea ∧ ¬ (wordAddrs ea).any s.launch.inText = true ∧
        ¬ (ea.toNat % 4 ≠ 0 ∧ (wordAddrs ea).any s.launch.inhibited = true) ∧
        (wordAddrs ea).all s.launch.mapped = true := by
  unfold State.admits
  rw [forall_lt_four, forall_lt_four, forall_lt_four, BitVec.not_lt]
  simp only [wordAddrs, List.any_cons, List.any_nil, List.all_cons, List.all_nil, Nat.add_zero,
    Bool.or_false, Bool.and_true, Bool.or_eq_true, Bool.and_eq_true, not_or, Bool.not_eq_true,
    not_and_or, ne_eq, not_not]

/-- The store primitive completes exactly when its admission checks pass, and then kills reservations and
puts the word (R34). -/
theorem State.memWrite_eq_next_iff (s t : State) (ea : Addr) (v : Word) :
    s.memWrite ea v = .next t ↔ s.admits ea ∧ t = (s.killReservations ea).putWord ea v := by
  rw [State.admits_iff, State.memWrite]
  split_ifs with h1 h2 h3 h4
  · simp [h1]
  · simp [h2]
  · simp [h3]
  · rw [Host.Outcome.next.injEq]
    exact ⟨fun h => ⟨⟨h1, h2, h3, h4⟩, h.symm⟩, fun h => h.2.symm⟩
  · simp [h4]

/-- What a store-word instruction does when it completes (R74). -/
theorem State.completeStore_eq_next_iff (s t : State) (ea : Addr) (v : Word) (update : State → State) :
    s.completeStore ea v update = .next t ↔
      s.pc ≠ Config.lastWordAddress ∧ s.admits ea ∧
        t = (update ((s.killReservations ea).putWord ea v)).advancePc := by
  have hm := fun u => State.memWrite_eq_next_iff s u ea v
  unfold State.completeStore
  by_cases hpc : s.pc = Config.lastWordAddress
  · simp [hpc]
  · by_cases ha : s.admits ea
    · have hn := (hm _).2 ⟨ha, rfl⟩
      simp only [hpc, hn, if_false, Host.Outcome.next.injEq, ne_eq, not_false_eq_true, true_and, eq_comm]
      exact ⟨fun h => ⟨ha, h⟩, fun h => h.2⟩
    · have hn : ∀ u, s.memWrite ea v ≠ .next u := fun u hu => ha ((hm u).1 hu).1
      simp only [hpc, if_false, false_and, and_false, ha, iff_false]
      cases hw : s.memWrite ea v with
      | next u => exact absurd hw (hn u)
      | fault r => simp
      | refused r => simp

/-- The update of an instruction: RA of the update forms receives the effective address (R66). -/
def State.applyUpdate (s : State) (i : Instr) (ea : Addr) : State :=
  match writtenReg i with
  | some ra => s.updateBase ra ea
  | none => s

/-- Everything an instruction can do when it completes: it is well formed, the program counter has a
successor, the store is admitted, and the state is the store's, then the update's, then advanced. -/
theorem exec_eq_next_iff (i : Instr) (s t : State) :
    exec i s = .next t ↔
      i.wellFormed = true ∧ s.pc ≠ Config.lastWordAddress ∧ s.admits (s.eaOf i) ∧
        t = ((((s.killReservations (s.eaOf i)).putWord (s.eaOf i) (s.storedValue (sourceReg i))).applyUpdate
          i (s.eaOf i))).advancePc := by
  cases i with
  | stw rs ra d =>
    simp only [exec, execStw, State.completeStore_eq_next_iff, Instr.wellFormed]
    simp [State.eaOf, sourceReg, State.applyUpdate, writtenReg]
  | stwu rs ra d =>
    simp only [exec, execStwu, Instr.wellFormed, State.eaOf, sourceReg, State.applyUpdate, writtenReg]
    split
    · simp_all
    · rw [State.completeStore_eq_next_iff]
      simp_all
  | stwux rs ra rb =>
    simp only [exec, execStwux, Instr.wellFormed, State.eaOf, sourceReg, State.applyUpdate, writtenReg]
    split
    · simp_all
    · rw [State.completeStore_eq_next_iff]
      simp_all
  | stwx rs ra rb =>
    simp only [exec, execStwx, State.completeStore_eq_next_iff, Instr.wellFormed]
    simp [State.eaOf, sourceReg, State.applyUpdate, writtenReg]

/-- When the step of a thread answers a next state: it is unmarked, not at `END_PC`, its program counter is
aligned, and the word there decodes to an instruction whose execution answers that state (R41, R74). -/
theorem State.threadStep_eq_next_iff (s t : State) :
    s.threadStep = .next t ↔
      s.unmarked ∧ s.pc ≠ s.launch.endPc ∧ s.pc.toNat % 4 = 0 ∧
        ∃ w i, tableGet s.launch.text s.pc.toNat = some w ∧ decode w = .instr i ∧ exec i s = .next t := by
  unfold State.threadStep State.unmarked
  cases hf : s.faulted <;> cases hr : s.refused <;> simp
  by_cases he : s.pc = s.launch.endPc
  · simp [he]
  · simp only [he, if_false, not_false_eq_true, true_and, State.fetch]
    by_cases ha : s.pc.toNat % 4 = 0
    · simp only [ha, not_true_eq_false, if_false, true_and, ne_eq]
      cases hw : tableGet s.launch.text s.pc.toNat with
      | none => simp
      | some w =>
        cases hd : decode w <;> simp [State.execDecoded, hd]
    · simp [ha]

/-- What choosing a thread can give (R86). -/
theorem State.switchTo_eq_some_iff (s u : State) (t : Nat) :
    s.switchTo t = some u ↔
      (t = s.self ∧ u = s) ∨
      (t ≠ s.self ∧ ∃ th, tableGet s.others t = some th ∧
        u = { s with
          gpr := th.gpr, pc := th.pc, faulted := th.faulted, refused := th.refused, self := t,
          others := tableSet (tableErase s.others t) s.self s.context }) := by
  unfold State.switchTo
  by_cases h : t = s.self
  · simp [h, eq_comm]
  · cases ht : tableGet s.others t <;> simp [h, eq_comm]

/-- What a pending store's becoming visible can do (R35, R38). -/
theorem State.commit_cases (s : State) (k : Nat) :
    s.commit k = s ∨
      ∃ p, s.pending[k]? = some p ∧ mayCommit s.pending k p = true ∧
        s.commit k = { s with mem := s.mem.writeCells p.cells, pending := s.pending.eraseIdx k } := by
  unfold State.commit
  split
  · rename_i p hp
    split
    · rename_i hc
      exact .inr ⟨p, hp, hc, rfl⟩
    · exact .inl rfl
  · exact .inl rfl

/-- Everything a step of the machine can do when it answers a next state: the running thread steps; a
scheduled thread is chosen and steps; a move that names no thread is dropped; or a pending store becomes
visible (R86). -/
theorem step_cases (s t : State) (h : step s = .next t) :
    (s.schedule = [] ∧ s.threadStep = .next t) ∨
    (∃ n rest u, s.schedule = .run n :: rest ∧ { s with schedule := rest }.switchTo n = some u ∧
      u.threadStep = .next t) ∨
    (∃ n rest, s.schedule = .run n :: rest ∧ { s with schedule := rest }.switchTo n = none ∧
      t = { s with schedule := rest }) ∨
    (∃ k rest, s.schedule = .commit k :: rest ∧ t = { s with schedule := rest }.commit k) := by
  unfold step State.stepMachine at h
  split at h
  · exact .inl ⟨‹_›, h⟩
  · rename_i m rest hs
    cases m with
    | run n =>
      simp only [State.move] at h
      split at h
      · rename_i u hu
        exact .inr (.inl ⟨n, rest, u, hs, hu, h⟩)
      · rename_i hn
        exact .inr (.inr (.inl ⟨n, rest, hs, hn, by simpa using h.symm⟩))
    | commit k =>
      exact .inr (.inr (.inr ⟨k, rest, hs, by simpa [State.move] using h.symm⟩))

end Sys2Proof.Machine
end

