-- ==== Sys2Proof/Laws/PerInstr.lean ====
section
/-! SUPPORT. A statement about every instruction as syntax, one lemma per constructor: its word selects its
own row of the opcode table (R52 to R54). -/

namespace Sys2Proof.Laws.EncodesInRow

/-- The instruction's word selects the row of its mnemonic, and no row of another mnemonic. -/
def Statement (i : Instr) : Prop :=
  ∀ r ∈ opcodeRows, (r.selects (encode i) = true ↔ r.mnemonic = i.mnemonic)

/-- A D-form word holds its primary opcode in the top six bits whatever its operands. -/
theorem dForm_opcode (op : Nat) (hop : op < 64) (rs ra : Reg) (d : BitVec 16) (w : Word)
    (hw : w = BitVec.ofNat 32 (op * 2 ^ 26 + rs.val * 2 ^ 21 + ra.val * 2 ^ 16 + d.toNat)) :
    w.toNat / 2 ^ 26 = op := by
  have hd := d.isLt
  have hs := rs.isLt
  have ha := ra.isLt
  rw [hw, BitVec.toNat_ofNat]
  omega

/-- An X-form word holds its primary opcode in the top six bits and its low eleven bits as given. -/
theorem xForm_opcode (low : Nat) (hlow : low < 2048) (rs ra rb : Reg) (w : Word)
    (hw : w = BitVec.ofNat 32 (31 * 2 ^ 26 + low + rs.val * 2 ^ 21 + ra.val * 2 ^ 16 + rb.val * 2 ^ 11)) :
    w.toNat / 2 ^ 26 = 31 ∧ w.toNat % 2 ^ 11 = low := by
  have hs := rs.isLt
  have ha := ra.isLt
  have hb := rb.isLt
  rw [hw, BitVec.toNat_ofNat]
  omega

/-- Masking with 0xFC000000 keeps the primary opcode. -/
theorem maskD_iff (w : Word) (op : Nat) (hop : op < 64) :
    (w &&& 0xFC000000 = BitVec.ofNat 32 (op * 2 ^ 26)) ↔ w.toNat / 2 ^ 26 = op := by
  have hw := w.isLt
  have key : w &&& 0xFC000000 = BitVec.ofNat 32 (w.toNat / 2 ^ 26 * 2 ^ 26) := by
    apply BitVec.eq_of_getLsbD_eq
    intro i hi
    rw [BitVec.getLsbD_and, BitVec.getLsbD_ofNat, Nat.testBit_mul_two_pow, Nat.testBit_div_two_pow]
    interval_cases i <;> simp [BitVec.getLsbD] <;> exact fun _ => by decide
  rw [key]
  constructor
  · intro h
    have := congrArg BitVec.toNat h
    rw [BitVec.toNat_ofNat, BitVec.toNat_ofNat] at this
    omega
  · intro h
    rw [h]

/-- Masking with 0xFC0007FF keeps the primary opcode and the low eleven bits. -/
theorem maskX_iff (w : Word) (op low : Nat) (hop : op < 64) (hlow : low < 2048) :
    (w &&& 0xFC0007FF = BitVec.ofNat 32 (op * 2 ^ 26 + low)) ↔
      w.toNat / 2 ^ 26 = op ∧ w.toNat % 2 ^ 11 = low := by
  have hw := w.isLt
  have key : w &&& 0xFC0007FF = BitVec.ofNat 32 (w.toNat / 2 ^ 26 * 2 ^ 26 + w.toNat % 2 ^ 11) := by
    apply BitVec.eq_of_getLsbD_eq
    intro i hi
    have hm : w.toNat % 2 ^ 11 < 2 ^ 26 := by omega
    rw [BitVec.getLsbD_and, BitVec.getLsbD_ofNat, Nat.mul_comm,
      Nat.testBit_two_pow_mul_add _ hm, Nat.testBit_div_two_pow, Nat.testBit_mod_two_pow]
    interval_cases i <;> simp [BitVec.getLsbD] <;> exact fun _ => by decide
  rw [key]
  constructor
  · intro h
    have := congrArg BitVec.toNat h
    rw [BitVec.toNat_ofNat, BitVec.toNat_ofNat] at this
    omega
  · rintro ⟨rfl, rfl⟩
    rfl

/-- How a word selects each of the four rows. -/
theorem selects_iff (w : Word) (r : OpcodeRow) (hr : r ∈ opcodeRows) :
    r.selects w = true ↔
      match r.mnemonic with
      | .stw => w.toNat / 2 ^ 26 = 36
      | .stwu => w.toNat / 2 ^ 26 = 37
      | .stwux => w.toNat / 2 ^ 26 = 31 ∧ w.toNat % 2 ^ 11 = 0x16E
      | .stwx => w.toNat / 2 ^ 26 = 31 ∧ w.toNat % 2 ^ 11 = 0x12E := by
  simp only [opcodeRows, List.mem_cons, List.not_mem_nil, or_false] at hr
  rcases hr with rfl | rfl | rfl | rfl <;> simp only [OpcodeRow.selects, beq_iff_eq]
  · exact maskD_iff w 36 (by omega)
  · exact maskD_iff w 37 (by omega)
  · exact maskX_iff w 31 0x16E (by omega) (by omega)
  · exact maskX_iff w 31 0x12E (by omega) (by omega)

theorem stw (rs ra : Reg) (d : BitVec 16) : Statement (.stw rs ra d) := by
  intro r hr
  have h := dForm_opcode 36 (by omega) rs ra d (encode (.stw rs ra d)) rfl
  rw [selects_iff _ r hr]
  cases hm : r.mnemonic <;> simp [Instr.mnemonic] <;> omega

theorem stwu (rs ra : Reg) (d : BitVec 16) : Statement (.stwu rs ra d) := by
  intro r hr
  have h := dForm_opcode 37 (by omega) rs ra d (encode (.stwu rs ra d)) rfl
  rw [selects_iff _ r hr]
  cases hm : r.mnemonic <;> simp [Instr.mnemonic] <;> omega

theorem stwux (rs ra rb : Reg) : Statement (.stwux rs ra rb) := by
  intro r hr
  have h := xForm_opcode 0x16E (by omega) rs ra rb (encode (.stwux rs ra rb)) rfl
  rw [selects_iff _ r hr]
  cases hm : r.mnemonic <;> simp [Instr.mnemonic] <;> omega

theorem stwx (rs ra rb : Reg) : Statement (.stwx rs ra rb) := by
  intro r hr
  have h := xForm_opcode 0x12E (by omega) rs ra rb (encode (.stwx rs ra rb)) rfl
  rw [selects_iff _ r hr]
  cases hm : r.mnemonic <;> simp [Instr.mnemonic] <;> omega

end Sys2Proof.Laws.EncodesInRow
end

