-- ==== Sys2Proof/Tests/Slice0.lean ====
section
/-! SUPPORT. The model's own tests: words written out from the encoding tables, the spec's derived vectors
(95_test_vectors.md), the well-formedness smoke test, and for each statement with hypotheses a named witness
that meets them. -/

namespace Sys2Proof.Machine.Tests

/-! ## Well-formedness: each check refuses an ill-formed term -/

/-- R57: RA = 0 is the invalid form of `stwu`, and RS = RA is not. -/
theorem test_wellFormed_stwu :
    (Instr.stwu 3 0 8).wellFormed = false ∧ (Instr.stwu 1 1 8).wellFormed = true := by decide

/-- R57: RA = 0 is the invalid form of `stwux`, and RB = RA is not. -/
theorem test_wellFormed_stwux :
    (Instr.stwux 3 0 4).wellFormed = false ∧ (Instr.stwux 3 4 4).wellFormed = true := by decide

/-! ## Decoding: words written bit by bit from R46, R48 and R52 -/

/-- OPCD 36, RS 31, RA 1, d = -4 (vector E2). -/
theorem test_decode_stw : decode 0b10010011111000011111111111111100 = .instr (.stw 31 1 0xFFFC) := by decide

/-- OPCD 37, RS 3, RA 9, d = 4 (vector E6). -/
theorem test_decode_stwu : decode 0b10010100011010010000000000000100 = .instr (.stwu 3 9 4) := by decide

/-- OPCD 31, RS 6, RA 1, RB 7, XO 183, bit 31 = 0 (vector E7). -/
theorem test_decode_stwux : decode 0b01111100110000010011100101101110 = .instr (.stwux 6 1 7) := by decide

/-- OPCD 31, RS 4, RA 1, RB 5, XO 151, bit 31 = 0 (vector E8). -/
theorem test_decode_stwx : decode 0b01111100100000010010100100101110 = .instr (.stwx 4 1 5) := by decide

/-- Primary opcode 38 is not in the source (vector E18). -/
theorem test_decode_notInSpec : decode 0x98610008 = .notInSpec 0x98610008 := by decide

/-- The encoder's words are those of vectors E2, E11, E7 and E9. -/
theorem test_encode :
    encode (.stw 31 1 0xFFFC) = 0x93E1FFFC ∧ encode (.stwu 31 31 0xFFFF) = 0x97FFFFFF ∧
    encode (.stwux 6 1 7) = 0x7CC1396E ∧ encode (.stwx 3 0 4) = 0x7C60212E := by decide

/-- The host's table word of `stwx r31, r31, r31` (vector E10), and a verdict is no instruction. -/
theorem test_decodeTableWord :
    decodeTableWord 32 0x7FFFF92E = some (.stwx 31 31 31) ∧ decodeTableWord 32 0x94600008 = none := by decide

/-- The assembler lines of vectors E2, E3, E7 and E9 (R61). -/
theorem test_assembly :
    (Instr.stw 31 1 0xFFFC).assembly = "stw r31, -4(r1)" ∧ (Instr.stw 5 0 0x1000).assembly = "stw r5, 4096(0)" ∧
    (Instr.stwux 6 1 7).assembly = "stwux r6, r1, r7" ∧ (Instr.stwx 3 0 4).assembly = "stwx r3, 0, r4" := by
  decide

/-! ## States the tests run in -/

/-- The state before the first step with some registers given. -/
def withRegs (l : List (Reg × DWord)) : State :=
  l.foldl (fun s c => s.writeGpr c.1 c.2) State.reset

/-- The outcome of a step, looked at: a next state that passes a check. -/
def nextHas (o : Host.Outcome State Fault Refusal) (check : State → Bool) : Bool :=
  match o with
  | .next t => check t
  | _ => false

/-- The refusal of an outcome, if it is one. -/
def refusalOf (o : Host.Outcome State Fault Refusal) : Option Refusal :=
  match o with
  | .refused r => some r
  | _ => none

/-- An outcome that is no next state. -/
theorem not_next {o : Host.Outcome State Fault Refusal} (h : nextHas o (fun _ => true) = false) :
    ∀ t, o ≠ .next t := by
  rintro t rfl
  simp [nextHas] at h

/-! ## The instructions: vectors of 95_test_vectors.md, one step each -/

/-- Vector V4: a negative displacement from the literal zero; r0 is not read. -/
theorem test_stw_literal_zero :
    nextHas (step ((withRegs [(0, 0x5555555555555555), (5, 1)]).withFetchWord 32 0x90A08000)) (fun t =>
      t.mem == [(0xFFFF8000, 0), (0xFFFF8001, 0), (0xFFFF8002, 0), (0xFFFF8003, 1)] &&
      t.pc == 0x00001004) = true := by decide

/-- Vector V9: RS = RA stores the old stack pointer at the new one. -/
theorem test_stwu_frame :
    nextHas (step ((withRegs [(1, 0x0000000070001000)]).withFetchWord 32 0x9421FFA0)) (fun t =>
      t.mem.readWord 0x70000FA0 == some 0x70001000 && t.readGpr 1 == 0x0000000070000FA0) = true := by decide

/-- Vector V10: RA receives the zero-extended 32-bit address. -/
theorem test_stwu_zero_extends :
    nextHas (step ((withRegs [(9, 0x0000000500004000), (3, 0x8877665544332211)]).withFetchWord 32 0x94690004))
      (fun t => t.mem.readWord 0x4004 == some 0x44332211 && t.readGpr 9 == 0x0000000000004004) = true := by
  decide

/-- Vector V14: RB = RA, and the carry out of the 64-bit sum is lost. -/
theorem test_stwux_same_index :
    nextHas (step ((withRegs [(8, 0x8000000000001800), (6, 1)]).withFetchWord 32 0x7CC8416E)) (fun t =>
      t.mem.readWord 0x3000 == some 1 && t.readGpr 8 == 0x0000000000003000) = true := by decide

/-- Vector V15: RS = RA stores the old value; a negative index. -/
theorem test_stwux_same_source :
    nextHas (step ((withRegs [(5, 0x0000000000003000), (4, 0xFFFFFFFFFFFFFFF0)]).withFetchWord 32 0x7CA5216E))
      (fun t => t.mem.readWord 0x2FF0 == some 0x3000 && t.readGpr 5 == 0x0000000000002FF0) = true := by decide

/-- Vector V18: the literal zero in the X form; the high word of RB is ignored. -/
theorem test_stwx_literal_zero :
    nextHas (step ((withRegs [(0, 0x9999), (4, 0xFFFFFFFF00003000), (3, 0x12345678)]).withFetchWord 32 0x7C60212E))
      (fun t => t.mem.readWord 0x3000 == some 0x12345678 && t.readGpr 0 == 0x9999) = true := by decide

/-- Vectors V20 and V36: a store across a line is performed as any other, and kills other threads'
reservations on both its granules and on no third. -/
theorem test_stwx_straddles :
    nextHas (exec (.stwx 3 1 5) { withRegs [(1, 0x3000), (5, 0x7E), (3, 0xA1B2C3D4)] with
        res := [⟨1, 0x3000⟩, ⟨1, 0x3100⟩, ⟨2, 0x3080⟩] }) (fun t =>
      t.mem == [(0x307E, 0xA1), (0x307F, 0xB2), (0x3080, 0xC3), (0x3081, 0xD4)] &&
      t.res == [⟨1, 0x3100⟩]) = true := by decide

/-! ## Stops (vectors V21, V23, V25, V31, V33) -/

/-- A launch with 0x2000 to 0x5FFF mapped, 0x4000 to 0x4FFF of it cache-inhibited, and the given text. -/
def smallLaunch (text : Table Word) : Launch :=
  { State.reset.launch with text := text, memMap := [⟨0x2000, 0x4000⟩], cacheInhibited := [⟨0x4000, 0x1000⟩] }

/-- A state at 0x1000 in that launch, with register r1 and the text given. -/
def smallState (r1 : DWord) (text : Table Word) : State :=
  { withRegs [(1, r1), (3, 1)] with launch := smallLaunch text }

/-- V31: 0xFFFFFFFC is the highest word address, 0xFFFFFFFD is refused. -/
theorem test_stw_top_of_memory :
    nextHas (exec (.stw 3 0 0xFFFC) State.reset) (fun t => t.mem.readWord 0xFFFFFFFC == some 0) = true ∧
    refusalOf (exec (.stw 3 0 0xFFFD) State.reset) = some (.addressWrap 0xFFFFFFFD) := by decide

/-- V33, V25, V23, V21: the fetch's and the decoder's refusals. -/
theorem test_step_refusals :
    refusalOf (step { State.reset with pc := 0x1002 }) = some .misalignedPc ∧
    refusalOf (step State.reset) = some (.noInstruction 0x1000) ∧
    refusalOf (step (State.reset.withFetchWord 32 0x80610008)) = some (.notInSpec 0x80610008) ∧
    refusalOf (step (State.reset.withFetchWord 32 0x7C61212F)) = some (.reservedRc .stwx) ∧
    refusalOf (step (State.reset.withFetchWord 32 0x94600008)) = some (.invalidForm .stwu) := by decide

/-! ## Two threads -/

/-- A second thread, and a state of two threads. -/
def otherThread : Thread := { State.reset.context with pc := 0x2000 }

/-- Two threads: thread 0 runs, thread 1 stands at 0x2000. -/
def twoThreads : State := { State.reset with others := [(1, otherThread)] }

/-! ## Witnesses for the hypotheses of the statements -/

/-- A word at 0x1000 in the state before the first step. -/
def placed (w : Word) : State := State.reset.placeWord w

theorem witness_DecodeEncodeRoundTrip : (Instr.stwu 31 1 0x8000).wellFormed = true := by decide

theorem witness_EncodeDecodeRoundTrip : decode 0x97FFFFFF = .instr (.stwu 31 31 0xFFFF) := by decide

theorem witness_RecordBitRefused :
    (placed 0x7C61216F).unmarked ∧ (placed 0x7C61216F).schedule = [] ∧
    (placed 0x7C61216F).pc ≠ (placed 0x7C61216F).launch.endPc ∧ (placed 0x7C61216F).pc.toNat % 4 = 0 ∧
    tableGet (placed 0x7C61216F).launch.text (placed 0x7C61216F).pc.toNat = some 0x7C61216F ∧
    decode 0x7C61216F = .reservedRc .stwux 0x7C61216F := by decide

theorem witness_InvalidUpdateFormsRefused : (1 : Reg) ≠ 0 := by decide

theorem witness_BytesDecodeBigEndian :
    (0x90610008 : Word).toNat = (0x90 : Byte).toNat * 2 ^ 24 + (0x61 : Byte).toNat * 2 ^ 16 +
      (0 : Byte).toNat * 2 ^ 8 + (8 : Byte).toNat := by decide

/-- The invariant's step: one that stores, one that runs another thread, one that makes a store visible. -/
theorem witness_StepKeepsInvariant :
    ((placed 0x90610008).Inv ∧ ∃ t, step (placed 0x90610008) = .next t) ∧
    ({ twoThreads with schedule := [.commit 0], pending := [⟨0, [(5, 1)]⟩] }.Inv ∧
      ∃ t, step { twoThreads with schedule := [.commit 0], pending := [⟨0, [(5, 1)]⟩] } = .next t) :=
  ⟨⟨by decide, _, rfl⟩, ⟨by decide, _, rfl⟩⟩

theorem witness_StepRunsDecodedInstruction :
    (placed 0x90610008).unmarked ∧ (placed 0x90610008).pc ≠ (placed 0x90610008).launch.endPc ∧
    (placed 0x90610008).pc.toNat % 4 = 0 ∧
    tableGet (placed 0x90610008).launch.text (placed 0x90610008).pc.toNat = some 0x90610008 ∧
    decode 0x90610008 = .instr (.stw 3 1 8) ∧ (placed 0x90610008).schedule = [] ∧
    { placed 0x90610008 with schedule := [] }.switchTo 0 = some (placed 0x90610008) := by decide

theorem witness_PlacedWordRuns : decode 0x7C81292E = .instr (.stwx 4 1 5) := by decide

/-- Each clause of the fetch's stops: a misaligned program counter, no text, and the three verdicts. -/
theorem witness_FetchAndDecodeStops :
    (State.reset.schedule = [] ∧ State.reset.unmarked ∧ State.reset.pc ≠ State.reset.launch.endPc ∧
      State.reset.pc.toNat % 4 = 0 ∧ tableGet State.reset.launch.text State.reset.pc.toNat = none) ∧
    ((0x1003 : Addr) ≠ State.reset.launch.endPc ∧ (0x1003 : Addr).toNat % 4 ≠ 0) ∧
    ((placed 0x94600008).schedule = [] ∧ (placed 0x94600008).unmarked ∧
      (placed 0x94600008).pc ≠ (placed 0x94600008).launch.endPc ∧ (placed 0x94600008).pc.toNat % 4 = 0 ∧
      tableGet (placed 0x94600008).launch.text (placed 0x94600008).pc.toNat = some 0x94600008) ∧
    decode 0x94600008 = .invalidForm .stwu 0x94600008 ∧
    decode 0x7C61212F = .reservedRc .stwx 0x7C61212F ∧ decode 0 = .notInSpec 0 := by decide

theorem witness_EndOfRunTakesNoStep :
    { State.reset with pc := 0x1004 }.schedule = [] ∧
    { State.reset with pc := 0x1004 }.pc = { State.reset with pc := 0x1004 }.launch.endPc ∧
    { State.reset with pc := 0x1004 }.unmarked := by decide

/-- A refusal, a fault and the end of a run, each without a next state. -/
theorem witness_StopsAreSticky :
    (State.reset.schedule = [] ∧ ∀ t, step State.reset ≠ .next t) ∧
    (∀ t, step { placed 0x90610008 with launch := { (placed 0x90610008).launch with memMap := [] } } ≠ .next t) ∧
    (∀ t, step { State.reset with pc := 0x1004 } ≠ .next t) :=
  ⟨⟨rfl, not_next (by decide)⟩, not_next (by decide), not_next (by decide)⟩

/-- A text of one word below `END_PC`, and the step it takes. -/
theorem witness_ReadyTextStaysReady :
    (placed 0x90610008).textReady ∧ (placed 0x90610008).unmarked ∧
    ∃ t, (placed 0x90610008).threadStep = .next t :=
  ⟨by decide, by decide, _, rfl⟩

theorem witness_ProgramCountersStayAligned :
    (placed 0x90610008).pc.toNat % 4 = 0 ∧ (∀ c ∈ (placed 0x90610008).others, c.2.pc.toNat % 4 = 0) ∧
    ∃ t, step (placed 0x90610008) = .next t :=
  ⟨by decide, by decide, _, rfl⟩

/-- The highest word address, from the literal zero. -/
theorem witness_StwStoresLowWord :
    (0 : DWord) = (if (0 : Reg) = 0 then 0 else State.reset.readGpr 0) ∧
    (0xFFFFFFFC : Addr) = ((0 : DWord) + (0xFFFC : BitVec 16).signExtend 64).setWidth 32 ∧
    (0 : Word) = (State.reset.readGpr 3).setWidth 32 ∧ State.reset.pc ≠ 0xFFFFFFFC ∧
    State.reset.admits 0xFFFFFFFC := by decide

/-- A misaligned address, with RS = RA. -/
theorem witness_StwuStoresAndUpdates :
    (1 : Reg) ≠ 0 ∧
    (0x2001 : Addr) = ((withRegs [(1, 0x2000)]).readGpr 1 + (1 : BitVec 16).signExtend 64).setWidth 32 ∧
    (0x2000 : Word) = ((withRegs [(1, 0x2000)]).readGpr 1).setWidth 32 ∧
    (withRegs [(1, 0x2000)]).pc ≠ 0xFFFFFFFC ∧ (withRegs [(1, 0x2000)]).admits 0x2001 := by decide

theorem witness_StwuxStoresAndUpdates :
    (31 : Reg) ≠ 0 ∧
    (0x4000 : Addr) =
      ((withRegs [(31, 0x2000)]).readGpr 31 + (withRegs [(31, 0x2000)]).readGpr 31).setWidth 32 ∧
    (0x2000 : Word) = ((withRegs [(31, 0x2000)]).readGpr 31).setWidth 32 ∧
    (withRegs [(31, 0x2000)]).pc ≠ 0xFFFFFFFC ∧ (withRegs [(31, 0x2000)]).admits 0x4000 := by decide

theorem witness_StwxStoresLowWord :
    (0 : DWord) = (if (0 : Reg) = 0 then 0 else (withRegs [(4, 0x3000)]).readGpr 0) ∧
    (0x3000 : Addr) = ((0 : DWord) + (withRegs [(4, 0x3000)]).readGpr 4).setWidth 32 ∧
    (0x3000 : Word) = ((withRegs [(4, 0x3000)]).readGpr 4).setWidth 32 ∧
    (withRegs [(4, 0x3000)]).pc ≠ 0xFFFFFFFC ∧ (withRegs [(4, 0x3000)]).admits 0x3000 := by decide

/-- An update form that completes, and addresses on both sides of its four bytes. -/
theorem witness_StoreFrame :
    (∃ t, exec (.stwu 1 1 0xFFE0) (withRegs [(1, 0x3020)]) = .next t) ∧
    writtenReg (.stwu 1 1 0xFFE0) ≠ some 3 ∧
    (∀ k < 4, 0x2FFF ≠ ((withRegs [(1, 0x3020)]).eaOf (.stwu 1 1 0xFFE0)).toNat + k) ∧
    (∀ k < 4, 0x3004 ≠ ((withRegs [(1, 0x3020)]).eaOf (.stwu 1 1 0xFFE0)).toNat + k) :=
  ⟨⟨_, rfl⟩, by decide, by decide, by decide⟩

theorem witness_SingleThreadStoreReachesMemory :
    (∃ t, exec (.stw 3 0 5) State.reset = .next t) ∧ State.reset.others = [] ∧ State.reset.pending = [] ∧
    (5 : Addr) = State.reset.eaOf (.stw 3 0 5) ∧ (0 : Word) = (State.reset.readGpr 3).setWidth 32 ∧
    ∀ k < 4, 9 ≠ (5 : Addr).toNat + k :=
  ⟨⟨_, rfl⟩, rfl, rfl, by decide, by decide, by decide⟩

/-- Two threads, an aligned and a misaligned store. -/
theorem witness_SharedStoreWaitsToBecomeVisible :
    twoThreads.others ≠ [] ∧ (∃ t, exec (.stw 3 0 4) twoThreads = .next t) ∧
    (twoThreads.eaOf (.stw 3 0 4)).toNat % 4 = 0 ∧ (∃ t, exec (.stw 3 0 7) twoThreads = .next t) ∧
    (twoThreads.eaOf (.stw 3 0 7)).toNat % 4 ≠ 0 :=
  ⟨by decide, ⟨_, rfl⟩, by decide, ⟨_, rfl⟩, by decide⟩

/-- A completion, the refused program counter, and a stop. -/
theorem witness_SequentialAdvance :
    (∃ t, exec (.stw 3 0 4) { State.reset with pc := 0xFFFFFFF8 } = .next t) ∧
    { State.reset with pc := 0xFFFFFFFC }.pc = 0xFFFFFFFC ∧ (Instr.stw 3 0 4).wellFormed = true ∧
    ∀ t, exec (.stwu 3 0 4) State.reset ≠ .next t :=
  ⟨⟨_, rfl⟩, by decide, by decide, not_next (by decide)⟩

/-- Each clause of the stops in order: the first address that wraps, the last byte that overlaps the text
(0xFFD is the lowest such address, 0x1003 the highest), cache-inhibited and unmapped storage. -/
theorem witness_StoreStopsInOrder :
    (Instr.stwux 3 0 4).wellFormed = false ∧ (Instr.stw 3 1 0).wellFormed = true ∧
    (smallState 0x1003 []).pc ≠ 0xFFFFFFFC ∧ { State.reset with pc := 0xFFFFFFFC }.pc = 0xFFFFFFFC ∧
    0xFFFFFFFC < (State.reset.eaOf (.stw 3 0 0xFFFD)).toNat ∧
    (∃ c ∈ (smallState 0x1003 [(0x1000, 0)]).launch.text, ∃ k < 4,
      c.1 ≤ ((smallState 0x1003 [(0x1000, 0)]).eaOf (.stw 3 1 0)).toNat + k ∧
      ((smallState 0x1003 [(0x1000, 0)]).eaOf (.stw 3 1 0)).toNat + k ≤ c.1 + 3) ∧
    (∃ c ∈ (smallState 0xFFD [(0x1000, 0)]).launch.text, ∃ k < 4,
      c.1 ≤ ((smallState 0xFFD [(0x1000, 0)]).eaOf (.stw 3 1 0)).toNat + k ∧
      ((smallState 0xFFD [(0x1000, 0)]).eaOf (.stw 3 1 0)).toNat + k ≤ c.1 + 3) ∧
    ((∀ c ∈ (smallState 0x3FFE []).launch.text, ∀ k < 4,
        ¬ (c.1 ≤ ((smallState 0x3FFE []).eaOf (.stw 3 1 0)).toNat + k ∧
          ((smallState 0x3FFE []).eaOf (.stw 3 1 0)).toNat + k ≤ c.1 + 3)) ∧
      ((smallState 0x3FFE []).eaOf (.stw 3 1 0)).toNat % 4 ≠ 0 ∧
      ∃ k < 4, (smallState 0x3FFE []).launch.inhibited
        (((smallState 0x3FFE []).eaOf (.stw 3 1 0)).toNat + k) = true) ∧
    ((∀ k < 4, (smallState 0x5FFD []).launch.inhibited
        (((smallState 0x5FFD []).eaOf (.stw 3 1 0)).toNat + k) = false) ∧
      ∃ k < 4, (smallState 0x5FFD []).launch.mapped
        (((smallState 0x5FFD []).eaOf (.stw 3 1 0)).toNat + k) = false) := by decide

/-- Both ends of the admitted addresses, one of them misaligned. -/
theorem witness_WordStoreNeedsNoAlignment :
    State.reset.admits 0 ∧ State.reset.admits 0xFFFFFFFB ∧ State.reset.admits 0xFFFFFFFC := by decide

theorem witness_MisalignedCacheInhibitedRefused :
    (Instr.stw 3 1 1).wellFormed = true ∧ (smallState 0x4000 []).pc ≠ 0xFFFFFFFC ∧
    (∀ k < 4, (smallState 0x4000 []).launch.inText
      (((smallState 0x4000 []).eaOf (.stw 3 1 1)).toNat + k) = false) ∧
    ((smallState 0x4000 []).eaOf (.stw 3 1 1)).toNat % 4 ≠ 0 ∧
    (∃ k < 4, (smallState 0x4000 []).launch.inhibited
      (((smallState 0x4000 []).eaOf (.stw 3 1 1)).toNat + k) = true) ∧
    ((smallState 0x4000 []).eaOf (.stw 3 1 0)).toNat % 4 = 0 ∧
    ∀ k < 4, (smallState 0x4000 []).launch.mapped
      (((smallState 0x4000 []).eaOf (.stw 3 1 0)).toNat + k) = true := by decide

/-- The last byte of the word is the first byte outside the map. -/
theorem witness_UnmappedStoreFaults :
    (Instr.stw 3 1 0).wellFormed = true ∧ (smallState 0x5FFD []).pc ≠ 0xFFFFFFFC ∧
    ((smallState 0x5FFD []).eaOf (.stw 3 1 0)).toNat ≤ 0xFFFFFFFC ∧
    (∀ k < 4, (smallState 0x5FFD []).launch.inText
      (((smallState 0x5FFD []).eaOf (.stw 3 1 0)).toNat + k) = false) ∧
    (∀ k < 4, (smallState 0x5FFD []).launch.inhibited
      (((smallState 0x5FFD []).eaOf (.stw 3 1 0)).toNat + k) = false) ∧
    ∃ k < 4, ∀ g ∈ (smallState 0x5FFD []).launch.memMap,
      ¬ (g.base ≤ ((smallState 0x5FFD []).eaOf (.stw 3 1 0)).toNat + k ∧
        ((smallState 0x5FFD []).eaOf (.stw 3 1 0)).toNat + k < g.base + g.size) := by decide

theorem witness_StoresNeverReachText :
    ((Instr.stw 3 1 0).wellFormed = true ∧ (smallState 0x1003 [(0x1000, 0)]).pc ≠ 0xFFFFFFFC ∧
      ((smallState 0x1003 [(0x1000, 0)]).eaOf (.stw 3 1 0)).toNat ≤ 0xFFFFFFFC ∧
      ∃ c ∈ (smallState 0x1003 [(0x1000, 0)]).launch.text, ∃ k < 4,
        c.1 ≤ ((smallState 0x1003 [(0x1000, 0)]).eaOf (.stw 3 1 0)).toNat + k ∧
        ((smallState 0x1003 [(0x1000, 0)]).eaOf (.stw 3 1 0)).toNat + k ≤ c.1 + 3) ∧
    ∃ t, step (placed 0x90610008) = .next t :=
  ⟨by decide, _, rfl⟩

/-- Another thread's reservations: one the store kills, one it does not touch. -/
theorem witness_StoreKillsReservations :
    (∃ t, exec (.stw 3 0 0x3010) { State.reset with res := [⟨1, 0x3000⟩, ⟨1, 0x3080⟩] } = .next t) ∧
    (0x3080 ≠ 0x3010 - 0x3010 % 128 ∧ 0x3080 ≠ 0x3013 - 0x3013 % 128) :=
  ⟨⟨_, rfl⟩, by decide⟩

theorem witness_LiteralZeroBaseIgnoresR0 :
    (3 : Reg) ≠ 0 ∧ (4 : Reg) ≠ 0 ∧ (∃ t, exec (.stw 3 0 4) State.reset = .next t) ∧
    ∃ t, exec (.stwx 3 0 4) State.reset = .next t :=
  ⟨by decide, by decide, ⟨_, rfl⟩, _, rfl⟩

/-- Each clause: `stwu` and `stwux` with RS = RA, RB = RA, and RS = RB. -/
theorem witness_SameRegisterUpdateForms :
    (1 : Reg) ≠ 0 ∧ (withRegs [(1, 0x3000), (2, 8)]).pc ≠ 0xFFFFFFFC ∧
    ((0x2FE0 : Addr) =
        ((withRegs [(1, 0x3000), (2, 8)]).readGpr 1 + (0xFFE0 : BitVec 16).signExtend 64).setWidth 32 ∧
      (withRegs [(1, 0x3000), (2, 8)]).admits 0x2FE0) ∧
    ((0x3008 : Addr) = ((withRegs [(1, 0x3000), (2, 8)]).readGpr 1 +
        (withRegs [(1, 0x3000), (2, 8)]).readGpr 2).setWidth 32 ∧
      (withRegs [(1, 0x3000), (2, 8)]).admits 0x3008) ∧
    ((0x6000 : Addr).toNat = 2 * ((withRegs [(1, 0x3000), (2, 8)]).readGpr 1).toNat % 2 ^ 32 ∧
      (withRegs [(1, 0x3000), (2, 8)]).admits 0x6000) := by decide

/-- Both ends of the frame sizes a displacement can hold. -/
theorem witness_FrameAllocationIdiom :
    ((0x6FFFFFFF : Addr) = ((withRegs [(1, 0x70000000)]).readGpr 1 - BitVec.ofNat 64 1).setWidth 32 ∧
      (withRegs [(1, 0x70000000)]).admits 0x6FFFFFFF) ∧
    ((0x6FFF8000 : Addr) = ((withRegs [(1, 0x70000000)]).readGpr 1 - BitVec.ofNat 64 32768).setWidth 32 ∧
      (withRegs [(1, 0x70000000)]).admits 0x6FFF8000) ∧
    (withRegs [(1, 0x70000000)]).pc ≠ 0xFFFFFFFC := by decide

/-- Two states that differ in the high word of r1 alone. -/
theorem witness_HighWordsHaveNoEffect :
    withRegs [(1, 0x500003000)] =
      { withRegs [(1, 0x3000)] with gpr := (withRegs [(1, 0x500003000)]).gpr } ∧
    (∀ r : Reg, ((withRegs [(1, 0x3000)]).readGpr r).setWidth 32 =
      ((withRegs [(1, 0x500003000)]).readGpr r).setWidth 32) ∧
    ∃ t, exec (.stwu 1 1 8) (withRegs [(1, 0x3000)]) = .next t :=
  ⟨by decide, by decide, _, rfl⟩

theorem witness_MixedWidthViewOfStoredWord : (0x3002 : Addr).toNat = (0x3000 : Addr).toNat + 2 := by decide

theorem witness_StoringTwiceIsStoringOnce : Memory.wf [(0x3001, 7), (0xFFFFFFFF, 0)] := by decide

theorem witness_ChoosingThreadKeepsThreads :
    twoThreads.contextOf 1 = some otherThread ∧ twoThreads.contextOf 0 = some twoThreads.context := by decide

/-- The running thread's step, and a scheduled thread's, each with a thread that does not move. -/
theorem witness_StepLeavesOtherThreads :
    ((∃ t, step { placed 0x90610008 with others := [(1, otherThread)] } = .next t) ∧ 1 ≠ (placed 0x90610008).self) ∧
    ((∃ t, step { placed 0x90610008 with others := [(1, otherThread)], schedule := [.run 0] } = .next t) ∧
      1 ≠ 0) :=
  ⟨⟨⟨_, rfl⟩, by decide⟩, ⟨_, rfl⟩, by decide⟩

/-- A pending store that may become visible, and one an older store of the same thread holds back. -/
theorem witness_PendingStoreBecomesVisible :
    ({ twoThreads with schedule := [.commit 1], pending := [⟨0, [(4, 1)]⟩, ⟨0, [(8, 2)]⟩] }.pending[1]? =
      some ⟨0, [(8, 2)]⟩ ∧ mayCommit [⟨0, [(4, 1)]⟩, ⟨0, [(8, 2)]⟩] 1 ⟨0, [(8, 2)]⟩ = true ∧
      tableSorted [(8, (2 : Byte))]) ∧
    ([⟨0, [(4, 1)]⟩, ⟨0, [(4, 2)]⟩][1]? = some (⟨0, [(4, 2)]⟩ : PendingStore) ∧
      mayCommit [⟨0, [(4, 1)]⟩, ⟨0, [(4, 2)]⟩] 1 ⟨0, [(4, 2)]⟩ = false) := by decide

theorem witness_CommitKeepsThreadView :
    { twoThreads with pending := [⟨1, [(4, 1)]⟩, ⟨0, [(4, 2)]⟩] }.pending[1]? = some ⟨0, [(4, 2)]⟩ ∧
    mayCommit [⟨1, [(4, 1)]⟩, ⟨0, [(4, 2)]⟩] 1 ⟨0, [(4, 2)]⟩ = true ∧ tableSorted [(4, (2 : Byte))] := by decide

theorem witness_EachMisalignedByteMayBecomeVisibleFirst :
    (∃ t, exec (.stw 3 0 7) twoThreads = .next t) ∧ twoThreads.others ≠ [] ∧ twoThreads.pending = [] ∧
    (twoThreads.eaOf (.stw 3 0 7)).toNat % 4 ≠ 0 :=
  ⟨⟨_, rfl⟩, by decide, by decide, by decide⟩

end Sys2Proof.Machine.Tests
end

section
/-! SUPPORT. The fields of a word as numbers: R7's arithmetic for `v[a:b]` and for register fields. -/

namespace Sys2Proof

theorem msb0_toNat {W : Nat} (v : BitVec W) (a b : Nat) :
    (msb0 v a b).toNat = v.toNat / 2 ^ (W - 1 - b) % 2 ^ (b - a + 1) := by
  rw [msb0, BitVec.toNat_setWidth, BitVec.toNat_ushiftRight, Nat.shiftRight_eq_div_pow]

theorem regField_val (w : Word) (a : Nat) :
    (regField w a).val = w.toNat / 2 ^ (31 - (a + 4)) % 32 := by
  have width : a + 4 - a + 1 = 5 := by omega
  rw [regField, Fin.val_ofNat, msb0_toNat, width]
  exact Nat.mod_mod _ 32

theorem dField_toNat (w : Word) : (dField w).toNat = w.toNat % 65536 := by
  simp [dField, msb0_toNat]

/-- The field of the six most significant bits needs no modulo: a word has no bits above it. -/
theorem msb0_opcd_toNat (w : Word) : (msb0 w 0 5).toNat = w.toNat / 2 ^ 26 := by
  have quotient_lt : w.toNat / 2 ^ 26 < 2 ^ 6 := Nat.div_lt_of_lt_mul w.isLt
  rw [msb0_toNat, Nat.mod_eq_of_lt quotient_lt]

/-- The last bit needs no shift. -/
theorem msb0_lastBit_toNat (w : Word) : (msb0 w 31 31).toNat = w.toNat % 2 := by
  simp [msb0_toNat]

/-- Settles O2: each field is R7's shift and modulo at its own position. -/
theorem wordFieldsByArithmetic : Obligations.WordFieldsByArithmetic := fun w =>
  ⟨msb0_opcd_toNat w, regField_val w 6, regField_val w 11, regField_val w 16,
    msb0_toNat w 21 30, msb0_lastBit_toNat w, dField_toNat w⟩

end Sys2Proof
end

section
/-! SUPPORT. Rules of the state's operations that the invariants and the frames below share: the fields an
instruction's update leaves, membership in tables, and what a property of states needs so that every step
keeps it (R86). -/

namespace Sys2Proof.Machine

/-! ## applyUpdate: an update writes at most one register (R11, R66) -/

section ApplyUpdate

variable (s : State) (i : Instr) (ea : Addr)

@[simp] theorem State.applyUpdate_pc : (s.applyUpdate i ea).pc = s.pc := by cases i <;> rfl

@[simp] theorem State.applyUpdate_faulted : (s.applyUpdate i ea).faulted = s.faulted := by
  cases i <;> rfl

@[simp] theorem State.applyUpdate_refused : (s.applyUpdate i ea).refused = s.refused := by
  cases i <;> rfl

@[simp] theorem State.applyUpdate_self : (s.applyUpdate i ea).self = s.self := by cases i <;> rfl

@[simp] theorem State.applyUpdate_others : (s.applyUpdate i ea).others = s.others := by
  cases i <;> rfl

@[simp] theorem State.applyUpdate_mem : (s.applyUpdate i ea).mem = s.mem := by cases i <;> rfl

@[simp] theorem State.applyUpdate_pending : (s.applyUpdate i ea).pending = s.pending := by
  cases i <;> rfl

@[simp] theorem State.applyUpdate_res : (s.applyUpdate i ea).res = s.res := by cases i <;> rfl

@[simp] theorem State.applyUpdate_draws : (s.applyUpdate i ea).draws = s.draws := by cases i <;> rfl

@[simp] theorem State.applyUpdate_schedule : (s.applyUpdate i ea).schedule = s.schedule := by
  cases i <;> rfl

@[simp] theorem State.applyUpdate_launch : (s.applyUpdate i ea).launch = s.launch := by
  cases i <;> rfl

/-- The update writes the register `writtenReg` names and no other. -/
@[simp] theorem State.readGpr_applyUpdate (q : Reg) :
    (s.applyUpdate i ea).readGpr q = if writtenReg i = some q then zext64 ea else s.readGpr q := by
  unfold State.applyUpdate
  cases writtenReg i <;> simp

end ApplyUpdate

/-! ## Tables and the waiting stores -/

theorem mem_of_tableGet {α : Type} {m : Table α} {a : Nat} {x : α} (h : tableGet m a = some x) :
    (a, x) ∈ m := by
  induction m with
  | nil => simp at h
  | cons c m ih =>
    rw [tableGet_cons] at h
    split at h
    next hk =>
      obtain rfl : c = (a, x) := Prod.ext hk (Option.some.inj h)
      exact List.mem_cons_self
    next => exact List.mem_cons_of_mem _ (ih h)

theorem tableSet_ne_nil {α : Type} (m : Table α) (a : Nat) (x : α) : tableSet m a x ≠ [] := by
  cases m with
  | nil => exact List.cons_ne_nil _ _
  | cons c m =>
    rw [tableSet]
    split_ifs <;> exact List.cons_ne_nil _ _

theorem wordCells_sorted (ea : Addr) (v : Word) : tableSorted (wordCells ea v) := by
  simp [wordCells, tableSorted]

/-- A waiting part of a store is the whole word, or one of its bytes by itself (R35). -/
theorem mem_pendingOf {n : Nat} {ea : Addr} {v : Word} {p : PendingStore} (h : p ∈ pendingOf n ea v) :
    p.cells = wordCells ea v ∨ ∃ c ∈ wordCells ea v, p.cells = [c] := by
  unfold pendingOf at h
  split at h
  next =>
    obtain rfl := List.mem_singleton.1 h
    exact .inl rfl
  next =>
    obtain ⟨c, hc, rfl⟩ := List.mem_map.1 h
    exact .inr ⟨c, hc, rfl⟩

/-! ## putWord: a store's bytes go to memory or wait (R34 step 6, R35, R38) -/

theorem State.putWord_alone {s : State} (h : s.others = [] ∧ s.pending = []) (ea : Addr) (v : Word) :
    s.putWord ea v = { s with mem := s.mem.writeWord ea v } := by
  simp [State.putWord, h]

theorem State.putWord_waiting {s : State} (h : ¬ (s.others = [] ∧ s.pending = [])) (ea : Addr) (v : Word) :
    s.putWord ea v = { s with pending := s.pending ++ pendingOf s.self ea v } := by
  simp [State.putWord, h]

/-! ## What every step keeps -/

/-- A property of states that the schedule's moving on, the choice of a thread, an instruction that
completes and a store's becoming visible each keep is kept by every step (R86). -/
theorem step_preserves {P : State → Prop}
    (hschedule : ∀ s rest, P s → P { s with schedule := rest })
    (hswitch : ∀ s u n, P s → s.switchTo n = some u → P u)
    (hexec : ∀ i s t, P s → exec i s = .next t → P t)
    (hcommit : ∀ s k, P s → P (s.commit k))
    {s t : State} (hs : P s) (h : step s = .next t) : P t := by
  have hthread : ∀ u, P u → u.threadStep = .next t → P t := by
    intro u hu ht
    obtain ⟨-, -, -, w, i, -, -, hi⟩ := (u.threadStep_eq_next_iff t).1 ht
    exact hexec i u t hu hi
  rcases step_cases s t h with
    ⟨-, h⟩ | ⟨n, rest, u, -, hu, h⟩ | ⟨n, rest, -, -, rfl⟩ | ⟨k, rest, -, rfl⟩
  · exact hthread s hs h
  · exact hthread u (hswitch _ u n (hschedule s rest hs) hu) h
  · exact hschedule s rest hs
  · exact hcommit _ k (hschedule s rest hs)

end Sys2Proof.Machine
end

section
/-! SUPPORT. The invariant of the machine's state: each operation keeps it, so every step does (R19, R20,
R35, R86). -/

namespace Sys2Proof.Machine

theorem State.inv_killReservations {s : State} (ea : Addr) (h : s.Inv) : (s.killReservations ea).Inv := by
  obtain ⟨hmem, hlaunch, ⟨hordered, haligned⟩, hthreads, hpending⟩ := h
  exact ⟨hmem, hlaunch,
    ⟨hordered.sublist List.filter_sublist, fun r hr => haligned r (List.mem_of_mem_filter hr)⟩,
    hthreads, hpending⟩

/-- What an admitted store leaves waiting is in canonical form (R34 step 1, R35). -/
theorem pendingOf_wf {n : Nat} {ea : Addr} {v : Word} (hea : ea ≤ Config.lastWordAddress) :
    ∀ p ∈ pendingOf n ea v, tableSorted p.cells ∧ ∀ c ∈ p.cells, c.1 < Config.addressLimit := by
  intro p hp
  rcases mem_pendingOf hp with hcells | ⟨c, hc, hcells⟩ <;> rw [hcells]
  · exact ⟨wordCells_sorted ea v, wordCells_bound ea v hea⟩
  · exact ⟨List.pairwise_singleton _ _, List.forall_mem_singleton.2 (wordCells_bound ea v hea c hc)⟩

/-- A lone thread with nothing waiting stores into memory; otherwise the bytes join the waiting ones, and
then there is another thread, since a lone thread has nothing waiting. -/
theorem State.inv_putWord {s : State} {ea : Addr} (v : Word) (hea : ea ≤ Config.lastWordAddress)
    (h : s.Inv) : (s.putWord ea v).Inv := by
  obtain ⟨hmem, hlaunch, hres, hthreads, hcells, hlone⟩ := h
  by_cases halone : s.others = [] ∧ s.pending = []
  · rw [State.putWord_alone halone]
    exact ⟨Memory.writeWord_wf s.mem ea v hmem hea, hlaunch, hres, hthreads, hcells, hlone⟩
  · rw [State.putWord_waiting halone]
    exact ⟨hmem, hlaunch, hres, hthreads,
      fun p hp => (List.mem_append.1 hp).elim (hcells p) (pendingOf_wf hea p),
      fun hothers => absurd ⟨hothers, hlone hothers⟩ halone⟩

theorem State.inv_applyUpdate {s : State} (i : Instr) (ea : Addr) (h : s.Inv) :
    (s.applyUpdate i ea).Inv := by
  cases i <;> exact h

theorem exec_inv {i : Instr} {s t : State} (hs : s.Inv) (h : exec i s = .next t) : t.Inv := by
  obtain ⟨-, -, ⟨hea, -⟩, rfl⟩ := (exec_eq_next_iff i s t).1 h
  exact State.inv_applyUpdate i _ (State.inv_putWord _ hea (State.inv_killReservations _ hs))

/-- Choosing a thread puts the one that ran among the others and takes the chosen one out (R86). -/
theorem State.inv_switchTo {s u : State} {n : Nat} (hs : s.Inv) (h : s.switchTo n = some u) : u.Inv := by
  rcases (s.switchTo_eq_some_iff u n).1 h with ⟨-, rfl⟩ | ⟨hn, th, -, rfl⟩
  · exact hs
  · obtain ⟨hmem, hlaunch, hres, ⟨hsorted, -⟩, hcells, -⟩ := hs
    refine ⟨hmem, hlaunch, hres, ⟨tableSet_sorted _ _ _ (tableErase_sorted _ n hsorted), ?_⟩, hcells,
      fun hnil => absurd hnil (tableSet_ne_nil _ _ _)⟩
    intro c hc
    rcases mem_tableSet _ _ _ c hc with rfl | hc
    · exact hn.symm
    · exact ((mem_tableErase s.others n c).1 hc).2

theorem State.inv_commit {s : State} (k : Nat) (hs : s.Inv) : (s.commit k).Inv := by
  rcases s.commit_cases k with hk | ⟨p, hp, -, hk⟩ <;> rw [hk]
  · exact hs
  · obtain ⟨hmem, hlaunch, hres, hthreads, hcells, hlone⟩ := hs
    have hbound := (hcells p (List.mem_of_getElem? hp)).2
    refine ⟨Memory.writeCells_wf s.mem p.cells hmem hbound, hlaunch, hres, hthreads,
      fun q hq => hcells q (List.mem_of_mem_eraseIdx hq), fun hothers => ?_⟩
    simp [hlone hothers]

/-- Settles O12: each of the operations a step is made of keeps the invariant. -/
theorem stepKeepsInvariant : Obligations.StepKeepsInvariant := fun _ _ hs h =>
  step_preserves (P := State.Inv) (fun _ _ hs => hs) (fun _ _ _ => State.inv_switchTo)
    (fun _ _ _ => exec_inv) (fun _ k => State.inv_commit k) hs h

end Sys2Proof.Machine
end

section
/-! SUPPORT. The program counter: how an instruction that completes advances it, and that every thread's
stays a multiple of 4 (R14, R15). -/

namespace Sys2Proof.Machine

/-- A well-formed instruction is the shared store with its own address, value and update (R74). -/
theorem exec_eq_completeStore {i : Instr} (s : State) (h : i.wellFormed = true) :
    exec i s = s.completeStore (s.eaOf i) (s.storedValue (sourceReg i))
      (fun u => u.applyUpdate i (s.eaOf i)) := by
  cases i with
  | stw => rfl
  | stwu rs ra d => exact if_neg (bne_iff_ne.1 h)
  | stwux rs ra rb => exact if_neg (bne_iff_ne.1 h)
  | stwx => rfl

theorem exec_pcWrap {i : Instr} {s : State} (hpc : s.pc = Config.lastWordAddress)
    (h : i.wellFormed = true) : exec i s = .refused .pcWrap := by
  rw [exec_eq_completeStore s h]
  exact if_pos hpc

theorem exec_pc_ne_lastWordAddress {i : Instr} {s t : State} (h : exec i s = .next t) :
    s.pc ≠ Config.lastWordAddress :=
  ((exec_eq_next_iff i s t).1 h).2.1

theorem exec_pc {i : Instr} {s t : State} (h : exec i s = .next t) : t.pc = s.pc + 4 := by
  obtain ⟨-, -, -, rfl⟩ := (exec_eq_next_iff i s t).1 h
  simp

theorem exec_others {i : Instr} {s t : State} (h : exec i s = .next t) : t.others = s.others := by
  obtain ⟨-, -, -, rfl⟩ := (exec_eq_next_iff i s t).1 h
  simp

/-- The one multiple of 4 whose successor does not fit in 32 bits is 0xFFFFFFFC (R15). -/
theorem toNat_add_four {pc : Addr} (halign : pc.toNat % 4 = 0) (hpc : pc ≠ Config.lastWordAddress) :
    (pc + 4).toNat = pc.toNat + 4 := by
  have hne : pc.toNat ≠ 0xFFFFFFFC := fun h => hpc (BitVec.eq_of_toNat_eq h)
  have hlt := pc.isLt
  rw [BitVec.toNat_add, show (4 : Addr).toNat = 4 from rfl]
  omega

theorem State.record_pc {s : State} {o : Host.Outcome State Fault Refusal} (ho : ∀ t, o ≠ .next t) :
    (s.record o).pc = s.pc := by
  cases o with
  | next t => exact absurd rfl (ho t)
  | fault r => cases r <;> rfl
  | refused r => rfl

/-- Settles O27: a completed store advances the program counter, and the only stop that reads it is R15's. -/
theorem sequentialAdvance : Obligations.SequentialAdvance := fun _ _ =>
  ⟨fun _ h => ⟨exec_pc h, fun halign => by
      rw [exec_pc h, toNat_add_four halign (exec_pc_ne_lastWordAddress h)]⟩,
    exec_pcWrap, State.record_pc⟩

/-! ## Every thread's program counter -/

/-- The program counters of all threads are multiples of 4 (R14). -/
def State.PcsAligned (s : State) : Prop :=
  s.pc.toNat % 4 = 0 ∧ ∀ c ∈ s.others, c.2.pc.toNat % 4 = 0

/-- An instruction moves the running thread's program counter by 4 and no other. -/
theorem exec_pcsAligned {i : Instr} {s t : State} (hs : s.PcsAligned) (h : exec i s = .next t) :
    t.PcsAligned := by
  obtain ⟨hself, hothers⟩ := hs
  refine ⟨?_, exec_others h ▸ hothers⟩
  rw [exec_pc h, toNat_add_four hself (exec_pc_ne_lastWordAddress h), Nat.add_mod_right]
  exact hself

/-- Choosing a thread exchanges two threads' contexts and changes neither (R86). -/
theorem State.pcsAligned_switchTo {s u : State} {n : Nat} (hs : s.PcsAligned)
    (h : s.switchTo n = some u) : u.PcsAligned := by
  rcases (s.switchTo_eq_some_iff u n).1 h with ⟨-, rfl⟩ | ⟨-, th, hth, rfl⟩
  · exact hs
  · obtain ⟨hself, hothers⟩ := hs
    refine ⟨hothers _ (mem_of_tableGet hth), fun c hc => ?_⟩
    rcases mem_tableSet _ _ _ c hc with rfl | hc
    · exact hself
    · exact hothers c ((mem_tableErase s.others n c).1 hc).1

theorem State.pcsAligned_commit {s : State} (k : Nat) (hs : s.PcsAligned) : (s.commit k).PcsAligned := by
  simpa [State.PcsAligned] using hs

/-- Settles O19: each of the operations a step is made of keeps all program counters aligned. -/
theorem programCountersStayAligned : Obligations.ProgramCountersStayAligned := fun _ _ hself hothers h =>
  step_preserves (P := State.PcsAligned) (fun _ _ hs => hs) (fun _ _ _ => State.pcsAligned_switchTo)
    (fun _ _ _ => exec_pcsAligned) (fun _ k => State.pcsAligned_commit k) ⟨hself, hothers⟩ h

end Sys2Proof.Machine
end

section
/-! SUPPORT. Stops: a stopped step's mark is answered again by every later step (R9, R23, R82). -/

namespace Sys2Proof.Machine

theorem State.threadStep_of_faulted {s : State} {r : Fault} (h : s.faulted = some r) :
    s.threadStep = .fault r := by
  simp [State.threadStep, h]

theorem State.threadStep_of_refused {s : State} {r : Refusal} (hf : s.faulted = none)
    (h : s.refused = some r) : s.threadStep = .refused r := by
  simp [State.threadStep, hf, h]

/-- A thread's fault is answered before its refusal, so one that answers a refusal has no fault. -/
theorem State.faulted_of_threadStep_refused {s : State} {r : Refusal} (h : s.threadStep = .refused r) :
    s.faulted = none := by
  cases hf : s.faulted with
  | none => rfl
  | some q => simp [State.threadStep_of_faulted hf] at h

theorem State.record_fault {s : State} {r : Fault} (h : r ≠ .runEnded) :
    s.record (.fault r) = { s with faulted := some r } := by
  cases r with
  | storageFault ea => rfl
  | runEnded => exact absurd rfl h

theorem step_eq_threadStep {s : State} (h : s.schedule = []) : step s = s.threadStep := by
  simp [step, State.stepMachine, h]

theorem State.advance_eq_record {s : State} (h : s.schedule = []) : s.advance = s.record s.threadStep := by
  rw [← step_eq_threadStep h]
  simp [State.advance, State.chosen, h, step]

/-- A thread that holds a refusal and no fault answers it, and is left as it is. -/
theorem State.refused_sticky {s : State} {r : Refusal} (hsched : s.schedule = [])
    (hf : s.faulted = none) (hr : s.refused = some r) : step s = .refused r ∧ s.advance = s := by
  rw [step_eq_threadStep hsched, State.advance_eq_record hsched, State.threadStep_of_refused hf hr,
    State.record, ← hr]
  exact ⟨rfl, rfl⟩

/-- A thread that holds a fault answers it, and is left as it is. -/
theorem State.faulted_sticky {s : State} {r : Fault} (hsched : s.schedule = []) (hne : r ≠ .runEnded)
    (hr : s.faulted = some r) : step s = .fault r ∧ s.advance = s := by
  rw [step_eq_threadStep hsched, State.advance_eq_record hsched, State.threadStep_of_faulted hr,
    State.record_fault hne, ← hr]
  exact ⟨rfl, rfl⟩

/-- Settles O17, by what the step answers: a refusal, the end of the run, or another fault. -/
theorem stopsAreSticky : Obligations.StopsAreSticky := by
  intro s hsched hstop
  have hadvance := State.advance_eq_record hsched
  rw [step_eq_threadStep hsched] at hstop ⊢
  cases hstep : s.threadStep with
  | next t => exact absurd hstep (hstop t)
  | refused r =>
    have hfaulted : s.faulted = none := State.faulted_of_threadStep_refused hstep
    have hmarked : s.advance = { s with refused := some r } := by rw [hadvance, hstep, State.record]
    rw [hmarked]
    obtain ⟨hagain, hsame⟩ :=
      State.refused_sticky (s := { s with refused := some r }) hsched hfaulted rfl
    exact ⟨hagain, hsame, .inl ⟨r, rfl, rfl⟩⟩
  | fault r =>
    by_cases hr : r = .runEnded
    · subst hr
      have hsame : s.advance = s := by rw [hadvance, hstep, State.record]
      rw [hsame, step_eq_threadStep hsched]
      exact ⟨hstep, hsame, .inr (.inr ⟨rfl, rfl⟩)⟩
    · have hmarked : s.advance = { s with faulted := some r } := by
        rw [hadvance, hstep, State.record_fault hr]
      rw [hmarked]
      obtain ⟨hagain, hsame⟩ := State.faulted_sticky (s := { s with faulted := some r }) hsched hr rfl
      exact ⟨hagain, hsame, .inr (.inl ⟨r, hr, rfl, rfl⟩)⟩

end Sys2Proof.Machine
end

section
/-! SUPPORT. The frame of a store: the bytes outside its four, in memory and as every thread sees them, and
the registers it does not name (R11, R13, R34, R51). -/

namespace Sys2Proof.Machine

/-- An address outside a word store at `ea` is the address of none of its cells. -/
theorem ne_of_mem_wordCells {ea : Addr} {v : Word} {a : Nat} (ha : ∀ k < 4, a ≠ ea.toNat + k) :
    ∀ c ∈ wordCells ea v, c.1 ≠ a := by
  obtain ⟨h0, h1, h2, h3⟩ := forall_lt_four.1 ha
  simp only [wordCells, List.forall_mem_cons, List.not_mem_nil, false_imp_iff, implies_true, and_true]
  exact ⟨h0.symm, h1.symm, h2.symm, h3.symm⟩

theorem Memory.read_writeWord_outside (m : Memory) {ea : Addr} (v : Word) {a : Nat}
    (ha : ∀ k < 4, a ≠ ea.toNat + k) : (m.writeWord ea v).read a = m.read a := by
  obtain ⟨h0, h1, h2, h3⟩ := forall_lt_four.1 ha
  have h0 : a ≠ ea.toNat := h0
  rw [Memory.read_writeWord, if_neg h3.symm, if_neg h2.symm, if_neg h1.symm, if_neg h0.symm]

theorem tableGet_eq_none {α : Type} {m : Table α} {a : Nat} (h : ∀ c ∈ m, c.1 ≠ a) :
    tableGet m a = none := by
  induction m with
  | nil => rfl
  | cons c m ih =>
    obtain ⟨hc, hm⟩ := List.forall_mem_cons.1 h
    rw [tableGet_cons, if_neg hc, ih hm]

/-- No waiting part of a store holds a byte outside the store. -/
theorem tableGet_pendingOf_outside {n : Nat} {ea : Addr} {v : Word} {a : Nat}
    (ha : ∀ k < 4, a ≠ ea.toNat + k) : ∀ p ∈ pendingOf n ea v, tableGet p.cells a = none := by
  intro p hp
  have hcells := ne_of_mem_wordCells (v := v) ha
  rcases mem_pendingOf hp with hword | ⟨c, hc, hbyte⟩
  · rw [hword]
    exact tableGet_eq_none hcells
  · rw [hbyte]
    exact tableGet_eq_none (List.forall_mem_singleton.2 (hcells c hc))

/-- What a thread sees at an address through a list of waiting stores, over what memory holds there: the
fold of `State.threadView`. -/
def viewThrough (thread a : Nat) (pending : List PendingStore) (below : Option Byte) : Option Byte :=
  pending.foldl
    (fun acc p => if p.thread = thread then (tableGet p.cells a).or acc else acc) below

theorem State.threadView_eq_viewThrough (s : State) (n a : Nat) :
    s.threadView n a = viewThrough n a s.pending (s.mem.read a) := rfl

/-- Waiting stores that hold no byte at an address do not show there. -/
theorem viewThrough_eq_self {n a : Nat} {pending : List PendingStore}
    (h : ∀ p ∈ pending, tableGet p.cells a = none) (below : Option Byte) :
    viewThrough n a pending below = below := by
  induction pending with
  | nil => rfl
  | cons p ps ih =>
    obtain ⟨hp, hps⟩ := List.forall_mem_cons.1 h
    rw [viewThrough, List.foldl_cons, hp, Option.none_or, ite_self]
    exact ih hps

theorem viewThrough_append (n a : Nat) (older newer : List PendingStore) (below : Option Byte) :
    viewThrough n a (older ++ newer) below = viewThrough n a newer (viewThrough n a older below) :=
  List.foldl_append

theorem State.read_putWord_outside (s : State) {ea : Addr} (v : Word) {a : Nat}
    (ha : ∀ k < 4, a ≠ ea.toNat + k) : (s.putWord ea v).mem.read a = s.mem.read a := by
  by_cases h : s.others = [] ∧ s.pending = []
  · rw [State.putWord_alone h]
    exact Memory.read_writeWord_outside s.mem v ha
  · rw [State.putWord_waiting h]

/-- Whether a store's bytes go to memory or wait, no thread's view changes outside them. -/
theorem State.threadView_putWord_outside (s : State) {ea : Addr} (v : Word) {a : Nat}
    (ha : ∀ k < 4, a ≠ ea.toNat + k) (n : Nat) : (s.putWord ea v).threadView n a = s.threadView n a := by
  rw [State.threadView_eq_viewThrough, State.read_putWord_outside s v ha, State.threadView_eq_viewThrough]
  by_cases h : s.others = [] ∧ s.pending = []
  · rw [State.putWord_alone h]
  · rw [State.putWord_waiting h, viewThrough_append]
    exact viewThrough_eq_self (tableGet_pendingOf_outside ha) _

@[simp] theorem State.threadView_killReservations (s : State) (ea : Addr) (n a : Nat) :
    (s.killReservations ea).threadView n a = s.threadView n a := rfl

@[simp] theorem State.threadView_advancePc (s : State) (n a : Nat) :
    s.advancePc.threadView n a = s.threadView n a := rfl

@[simp] theorem State.threadView_applyUpdate (s : State) (i : Instr) (ea : Addr) (n a : Nat) :
    (s.applyUpdate i ea).threadView n a = s.threadView n a := by
  rw [State.threadView_eq_viewThrough, State.applyUpdate_pending, State.applyUpdate_mem]
  rfl

/-- Settles O24: the bytes by the frame of `putWord`, the other fields by the rules of the operations an
instruction is made of. -/
theorem storeFrame : Obligations.StoreFrame := by
  intro i s t h
  obtain ⟨-, -, -, rfl⟩ := (exec_eq_next_iff i s t).1 h
  refine ⟨fun r hr => by simp [hr], by simp, by simp, by simp, by simp, by simp, by simp, by simp,
    fun a ha => ⟨?_, fun n => ?_⟩⟩
  · simp [State.read_putWord_outside _ _ ha]
  · simp [State.threadView_putWord_outside _ _ ha]

/-! ## Register r0 under the literal zero -/

/-- A store reads no register, so a register write before it is one after it. -/
theorem State.writeGpr_putWord (s : State) (ea : Addr) (v : Word) (r : Reg) (x : DWord) :
    (s.writeGpr r x).putWord ea v = (s.putWord ea v).writeGpr r x := by
  by_cases h : s.others = [] ∧ s.pending = []
  · rw [State.putWord_alone h, State.putWord_alone (s := s.writeGpr r x) h]
    rfl
  · rw [State.putWord_waiting h, State.putWord_waiting (s := s.writeGpr r x) h]
    rfl

theorem State.applyUpdate_of_writtenReg_eq_none {i : Instr} (h : writtenReg i = none) (s : State)
    (ea : Addr) : s.applyUpdate i ea = s := by
  rw [State.applyUpdate, h]

/-- An instruction that writes no register, and whose address and stored value a register does not reach,
does the same whatever that register holds. -/
theorem exec_writeGpr_of_unread {i : Instr} {s t : State} {r : Reg} {x : DWord}
    (hwritten : writtenReg i = none) (hea : (s.writeGpr r x).eaOf i = s.eaOf i)
    (hvalue : (s.writeGpr r x).storedValue (sourceReg i) = s.storedValue (sourceReg i))
    (h : exec i s = .next t) : exec i (s.writeGpr r x) = .next (t.writeGpr r x) := by
  obtain ⟨hwf, hpc, hadmits, rfl⟩ := (exec_eq_next_iff i s t).1 h
  rw [exec_eq_next_iff, hea, hvalue]
  refine ⟨hwf, hpc, hadmits, ?_⟩
  rw [State.applyUpdate_of_writtenReg_eq_none hwritten, State.applyUpdate_of_writtenReg_eq_none hwritten]
  exact congrArg State.advancePc (State.writeGpr_putWord (s.killReservations _) _ _ r x).symm

theorem State.baseOrZero_zero (s : State) : s.baseOrZero 0 = 0 := rfl

theorem State.storedValue_writeGpr_of_ne {r q : Reg} (h : q ≠ r) (s : State) (x : DWord) :
    (s.writeGpr r x).storedValue q = s.storedValue q := by
  simp [State.storedValue, h.symm]

/-- Settles O34: with RA = 0 neither the address nor the stored value reaches r0, unless RS or RB names it. -/
theorem literalZeroBaseIgnoresR0 : Obligations.LiteralZeroBaseIgnoresR0 := by
  intro s t rs x hrs
  have hvalue := State.storedValue_writeGpr_of_ne hrs s x
  refine ⟨fun d => exec_writeGpr_of_unread rfl rfl hvalue, fun rb hrb => ?_, fun rb => ?_, ?_⟩
  · have hea : (s.writeGpr 0 x).eaStwx 0 rb = s.eaStwx 0 rb := by
      simp [State.eaStwx, State.baseOrZero_zero, hrb.symm]
    exact exec_writeGpr_of_unread rfl hea hvalue
  · simp [State.eaStwx]
  · simp [State.storedValue, trunc32]

end Sys2Proof.Machine
end

section
/-! SUPPORT. The bytes of a word as numbers, and that reading them back in memory order gives the word (R25,
R26, R27). -/

namespace Sys2Proof

/-- Byte `k` as R25 and R26 write it, by division. -/
theorem byteOfWord_eq_ofNat (v : Word) (k : Nat) :
    byteOfWord v k = BitVec.ofNat 8 (v.toNat / 2 ^ (8 * (3 - k))) := by
  apply BitVec.eq_of_toNat_eq
  rw [byteOfWord, BitVec.toNat_setWidth, BitVec.toNat_ushiftRight, Nat.shiftRight_eq_div_pow,
    BitVec.toNat_ofNat]

/-- Byte `k` with the shift written as a power of 256. -/
theorem byteOfWord_eq_ofNat_256 (v : Word) (k : Nat) :
    byteOfWord v k = BitVec.ofNat 8 (v.toNat / 256 ^ (3 - k)) := by
  rw [byteOfWord_eq_ofNat, pow_mul]
  rfl

theorem byteOfWord_toNat (v : Word) (k : Nat) :
    (byteOfWord v k).toNat = v.toNat / 2 ^ (8 * (3 - k)) % 256 := by
  rw [byteOfWord_eq_ofNat, BitVec.toNat_ofNat]

theorem wordOfBytes_eq {b0 b1 b2 b3 : Byte} {w : Word}
    (h : w.toNat = b0.toNat * 2 ^ 24 + b1.toNat * 2 ^ 16 + b2.toNat * 2 ^ 8 + b3.toNat) :
    wordOfBytes b0 b1 b2 b3 = w := by
  rw [wordOfBytes, ← h, BitVec.ofNat_toNat, BitVec.setWidth_eq]

theorem wordOfBytes_byteOfWord (w : Word) :
    wordOfBytes (byteOfWord w 0) (byteOfWord w 1) (byteOfWord w 2) (byteOfWord w 3) = w := by
  have hw := w.isLt
  apply wordOfBytes_eq
  simp only [byteOfWord_toNat]
  omega

/-- Settles O9: the decoder of bytes reads the word R27 makes of them, and that word is determined by its
number. -/
theorem bytesDecodeBigEndian : Obligations.BytesDecodeBigEndian := by
  refine ⟨fun b0 b1 b2 b3 rest w hw => ?_, fun w rest => ?_⟩
  · rw [decodeBytes, wordOfBytes_eq hw]
  · show some (decode (wordOfBytes _ _ _ _), rest) = _
    rw [wordOfBytes_byteOfWord]

end Sys2Proof
end

section
/-! SUPPORT. The step of an unmarked thread, by what stands at its program counter (R41, R74, R87). -/

namespace Sys2Proof.Machine

theorem State.fetch_misalignedPc {s : State} (halign : s.pc.toNat % 4 ≠ 0) :
    s.fetch = .refused .misalignedPc := if_pos halign

section AlignedFetch

variable {s : State} (halign : s.pc.toNat % 4 = 0) (hend : s.pc ≠ s.launch.endPc)

include halign hend

theorem State.fetch_noInstruction (htext : tableGet s.launch.text s.pc.toNat = none) :
    s.fetch = .refused (.noInstruction s.pc) := by
  rw [State.fetch, if_neg (not_not.2 halign), if_neg hend, htext]

theorem State.fetch_word {w : Word} (htext : tableGet s.launch.text s.pc.toNat = some w) :
    s.fetch = .word w := by
  rw [State.fetch, if_neg (not_not.2 halign), if_neg hend, htext]

end AlignedFetch

section UnmarkedStep

variable {s : State} (hsched : s.schedule = []) (hunmarked : s.unmarked) (hend : s.pc ≠ s.launch.endPc)

include hsched hunmarked hend

theorem step_of_fetch_refused {r : Refusal} (h : s.fetch = .refused r) : step s = .refused r := by
  obtain ⟨hfaulted, hrefused⟩ := hunmarked
  simp [step_eq_threadStep hsched, State.threadStep, hfaulted, hrefused, hend, h]

theorem step_of_fetch_word {w : Word} (h : s.fetch = .word w) : step s = s.execDecoded (decode w) := by
  obtain ⟨hfaulted, hrefused⟩ := hunmarked
  simp [step_eq_threadStep hsched, State.threadStep, hfaulted, hrefused, hend, h]

end UnmarkedStep

/-- The verdict that a word is in no row names that word. -/
theorem decode_notInSpec_word {w v : Word} (h : decode w = .notInSpec v) : v = w := by
  unfold decode at h
  split_ifs at h
  exact (Decoded.notInSpec.inj h).symm

/-- Settles O15: the fetch's stops are its two checks, the decoder's are its three verdicts. -/
theorem fetchAndDecodeStops : Obligations.FetchAndDecodeStops := by
  intro s hsched hunmarked hend
  have hrefused := fun r => step_of_fetch_refused hsched hunmarked hend (r := r)
  refine ⟨fun halign => hrefused _ (State.fetch_misalignedPc halign),
    fun halign htext => hrefused _ (State.fetch_noInstruction halign hend htext),
    fun halign w htext => ?_⟩
  rw [step_of_fetch_word hsched hunmarked hend (State.fetch_word halign hend htext)]
  refine ⟨fun m v hd => ?_, fun m v hd => ?_, fun v hd => ?_⟩
  · rw [hd, State.execDecoded]
  · rw [hd, State.execDecoded]
  · rw [hd, State.execDecoded, decode_notInSpec_word hd]

/-! ## A word placed for the next step -/

section PlaceWord

variable (s : State) (w : Word)

theorem State.placeWord_schedule : (s.placeWord w).schedule = [] := rfl

theorem State.placeWord_unmarked : (s.placeWord w).unmarked := ⟨rfl, rfl⟩

/-- Clearing its two low bits makes a program counter a multiple of 4. -/
theorem State.placeWord_pc_aligned : (s.placeWord w).pc.toNat % 4 = 0 := by
  show (s.pc.toNat &&& 0xFFFFFFFC) % 2 ^ 2 = 0
  rw [Nat.and_mod_two_pow]
  exact Nat.and_zero _

/-- `END_PC` is moved on where it stood at the program counter. -/
theorem State.placeWord_pc_ne_endPc : (s.placeWord w).pc ≠ (s.placeWord w).launch.endPc := by
  simp only [State.placeWord]
  split
  · bv_omega
  next hne => exact Ne.symm hne

theorem State.placeWord_text :
    tableGet (s.placeWord w).launch.text (s.placeWord w).pc.toNat = some w := by
  simp [State.placeWord, tableGet_tableSet]

end PlaceWord

/-- Settles O14: the state with a word placed meets every condition of the step's running it. -/
theorem placedWordRuns : Obligations.PlacedWordRuns := by
  intro s w i hd
  have hend := s.placeWord_pc_ne_endPc w
  have hfetch := State.fetch_word (s.placeWord_pc_aligned w) hend (s.placeWord_text w)
  refine ⟨?_, rfl, rfl, rfl⟩
  rw [step_of_fetch_word (s.placeWord_schedule w) (s.placeWord_unmarked w) hend hfetch, hd,
    State.execDecoded]

end Sys2Proof.Machine
end

section
/-! SUPPORT. Memory after writes, read as bytes, halfwords and words, and that a memory in canonical form is
determined by what it reads as (R20, R25, R26, R36). -/

namespace Sys2Proof.Machine

theorem wordCells_eq_map (ea : Addr) (v : Word) :
    wordCells ea v = (List.range 4).map fun k => (ea.toNat + k, byteOfWord v k) := rfl

theorem tableGet_wordCells (ea : Addr) (v : Word) {k : Nat} (hk : k < 4) :
    tableGet (wordCells ea v) (ea.toNat + k) = some (byteOfWord v k) := by
  interval_cases k <;> simp [wordCells]

theorem Memory.read_writeWord_inside (m : Memory) (ea : Addr) (v : Word) {k : Nat} (hk : k < 4) :
    (m.writeWord ea v).read (ea.toNat + k) = some (byteOfWord v k) := by
  rw [Memory.read_writeWord]
  interval_cases k <;> simp

theorem Memory.readWord_writeWord (m : Memory) (ea : Addr) (v : Word) :
    (m.writeWord ea v).readWord ea.toNat = some v := by
  have hread := fun k hk => Memory.read_writeWord_inside m ea v (k := k) hk
  rw [Memory.readWord, show ea.toNat = ea.toNat + 0 from rfl, hread 0 (by omega), hread 1 (by omega),
    hread 2 (by omega), hread 3 (by omega)]
  exact congrArg some (wordOfBytes_byteOfWord v)

theorem Memory.readHalf_eq {m : Memory} {a : Nat} {b0 b1 : Byte} {x : Nat} (h0 : m.read a = some b0)
    (h1 : m.read (a + 1) = some b1) (hx : b0.toNat * 2 ^ 8 + b1.toNat = x) :
    m.readHalf a = some (BitVec.ofNat 16 x) := by
  rw [Memory.readHalf, h0, h1, ← hx]

/-- Settles O39: bytes and halfwords by the bytes of the stored word, and a later store two bytes on by what
it leaves outside its own four. -/
theorem mixedWidthViewOfStoredWord : Obligations.MixedWidthViewOfStoredWord := by
  intro m ea ea₂ v u
  have hlt := v.isLt
  have hread := fun k hk => Memory.read_writeWord_inside m ea v (k := k) hk
  refine ⟨fun k hk => ?_, ?_, ?_, fun hea₂ => ⟨fun k hk => ?_, fun k hk => ?_⟩⟩
  · rw [hread k hk, byteOfWord_eq_ofNat]
  · refine Memory.readHalf_eq (hread 0 (by omega)) (hread 1 (by omega)) ?_
    simp only [byteOfWord_toNat]
    omega
  · refine Memory.readHalf_eq (hread 2 (by omega)) (hread 3 (by omega)) ?_
    simp only [byteOfWord_toNat]
    omega
  · rw [Memory.read_writeWord_outside _ u (by omega), hread k (by omega), byteOfWord_eq_ofNat]
  · rw [← hea₂, Memory.read_writeWord_inside _ ea₂ u (by omega), byteOfWord_eq_ofNat]

/-! ## Tables in canonical form -/

theorem mem_iff_tableGet {α : Type} {m : Table α} (h : tableSorted m) (c : Nat × α) :
    c ∈ m ↔ tableGet m c.1 = some c.2 := by
  refine ⟨fun hc => ?_, mem_of_tableGet⟩
  induction m with
  | nil => exact absurd hc List.not_mem_nil
  | cons d m ih =>
    obtain ⟨hfirst, hrest⟩ := List.pairwise_cons.1 h
    rw [tableGet_cons]
    rcases List.mem_cons.1 hc with rfl | hc
    · exact if_pos rfl
    · rw [if_neg (hfirst c.1 (List.mem_map_of_mem hc)).ne]
      exact ih hrest hc

/-- Two tables in canonical form that read alike are equal. -/
theorem table_ext {α : Type} {m n : Table α} (hm : tableSorted m) (hn : tableSorted n)
    (h : ∀ a, tableGet m a = tableGet n a) : m = n := by
  have hm' := List.pairwise_map.1 hm
  have hn' := List.pairwise_map.1 hn
  have hperm : m.Perm n := by
    refine (List.perm_ext_iff_of_nodup (hm'.imp ?_) (hn'.imp ?_)).2 fun c => ?_
    · exact fun hlt heq => hlt.ne (congrArg Prod.fst heq)
    · exact fun hlt heq => hlt.ne (congrArg Prod.fst heq)
    · rw [mem_iff_tableGet hm, mem_iff_tableGet hn, h]
  exact hperm.eq_of_pairwise (fun _ _ _ _ hlt hgt => absurd hgt hlt.asymm) hm' hn'

theorem Memory.writeCells_sorted (cells : Table Byte) {m : Memory} (h : tableSorted m) :
    tableSorted (m.writeCells cells) := by
  induction cells generalizing m with
  | nil => exact h
  | cons c cells ih => exact ih (tableSet_sorted m c.1 c.2 h)

/-- Settles O40: both memories are in canonical form and read alike. -/
theorem storingTwiceIsStoringOnce : Obligations.StoringTwiceIsStoringOnce := by
  rintro m ea v ⟨hsorted, -⟩
  have honce : tableSorted (m.writeWord ea v) := Memory.writeCells_sorted _ hsorted
  refine table_ext (Memory.writeCells_sorted _ honce) honce fun a => ?_
  show ((m.writeWord ea v).writeWord ea v).read a = (m.writeWord ea v).read a
  by_cases ha : ∀ k < 4, a ≠ ea.toNat + k
  · exact Memory.read_writeWord_outside _ v ha
  · push Not at ha
    obtain ⟨k, hk, rfl⟩ := ha
    rw [Memory.read_writeWord_inside _ ea v hk, Memory.read_writeWord_inside _ ea v hk]

end Sys2Proof.Machine
end

section
/-! SUPPORT. What a completed store leaves: its bytes in memory, or waiting, as its thread sees them; and the
reservations (R19, R25, R28, R35, R38, R39). -/

namespace Sys2Proof.Machine

/-- The source register's low word, the way the statements write it (R65). -/
theorem State.storedValue_eq (s : State) (rs : Reg) : s.storedValue rs = (s.readGpr rs).setWidth 32 := rfl

/-! ## Bytes in memory -/

theorem exec_mem_alone {i : Instr} {s t : State} (h : exec i s = .next t)
    (halone : s.others = [] ∧ s.pending = []) :
    t.mem = s.mem.writeWord (s.eaOf i) (s.storedValue (sourceReg i)) ∧ t.pending = [] := by
  obtain ⟨-, -, -, rfl⟩ := (exec_eq_next_iff i s t).1 h
  simp [State.putWord_alone (s := s.killReservations (s.eaOf i)) halone, halone.2]

/-- Settles O25: a lone thread's memory after the store is `writeWord`'s. -/
theorem singleThreadStoreReachesMemory : Obligations.SingleThreadStoreReachesMemory := by
  rintro i s t ea v h hothers hpending rfl rfl
  obtain ⟨hmem, hnone⟩ := exec_mem_alone h ⟨hothers, hpending⟩
  rw [hmem]
  refine ⟨fun k hk => ?_, Memory.readWord_writeWord s.mem _ _, hnone,
    fun a ha => Memory.read_writeWord_outside s.mem _ ha⟩
  rw [Memory.read_writeWord_inside _ _ _ hk, byteOfWord_eq_ofNat_256, State.storedValue_eq]

/-! ## Bytes that wait -/

theorem pendingOf_aligned {n : Nat} {ea : Addr} (v : Word) (h : ea.toNat % 4 = 0) :
    pendingOf n ea v = [⟨n, wordCells ea v⟩] := if_pos h

theorem pendingOf_misaligned {n : Nat} {ea : Addr} (v : Word) (h : ea.toNat % 4 ≠ 0) :
    pendingOf n ea v = (List.range 4).map fun k => ⟨n, [(ea.toNat + k, byteOfWord v k)]⟩ := if_neg h

theorem exec_pending_shared {i : Instr} {s t : State} (h : exec i s = .next t) (hothers : s.others ≠ []) :
    t.mem = s.mem ∧
      t.pending = s.pending ++ pendingOf s.self (s.eaOf i) (s.storedValue (sourceReg i)) := by
  obtain ⟨-, -, -, rfl⟩ := (exec_eq_next_iff i s t).1 h
  have hshared : ¬ (s.others = [] ∧ s.pending = []) := fun h => hothers h.1
  simp [State.putWord_waiting (s := s.killReservations (s.eaOf i)) hshared]

/-- Settles O26: the store appends `pendingOf`'s entries, whose form is the alignment's (R35). -/
theorem sharedStoreWaitsToBecomeVisible : Obligations.SharedStoreWaitsToBecomeVisible := by
  rintro i s t ea v h hothers rfl rfl
  obtain ⟨hmem, hpending⟩ := exec_pending_shared h hothers
  refine ⟨hmem, fun halign =>
    ⟨⟨s.self, wordCells (s.eaOf i) (s.storedValue (sourceReg i))⟩, ?_, rfl, ?_⟩, fun halign => ?_⟩
  · rw [hpending, pendingOf_aligned _ halign]
  · simp only [wordCells_eq_map, byteOfWord_eq_ofNat_256, State.storedValue_eq]
  · rw [hpending, pendingOf_misaligned _ halign]
    simp only [byteOfWord_eq_ofNat_256, State.storedValue_eq]

/-! ## Bytes as the storing thread sees them -/

/-- Whatever is below them, a thread sees its own store's waiting bytes. -/
theorem viewThrough_pendingOf_inside (n : Nat) (ea : Addr) (v : Word) {k : Nat} (hk : k < 4)
    (below : Option Byte) :
    viewThrough n (ea.toNat + k) (pendingOf n ea v) below = some (byteOfWord v k) := by
  by_cases halign : ea.toNat % 4 = 0
  · rw [pendingOf_aligned v halign]
    simp [viewThrough, tableGet_wordCells ea v hk]
  · rw [pendingOf_misaligned v halign]
    interval_cases k <;> simp [viewThrough, List.range_succ]

/-- Whether a store's bytes go to memory or wait, its own thread sees them. -/
theorem State.threadView_putWord_inside (s : State) (ea : Addr) (v : Word) {k : Nat} (hk : k < 4) :
    (s.putWord ea v).threadView s.self (ea.toNat + k) = some (byteOfWord v k) := by
  rw [State.threadView_eq_viewThrough]
  by_cases h : s.others = [] ∧ s.pending = []
  · rw [State.putWord_alone h, h.2]
    exact Memory.read_writeWord_inside s.mem ea v hk
  · rw [State.putWord_waiting h, viewThrough_append]
    exact viewThrough_pendingOf_inside s.self ea v hk _

/-- Settles O29: the checks of R34 are all that stands before the bytes, and alignment is none of them. -/
theorem wordStoreNeedsNoAlignment : Obligations.WordStoreNeedsNoAlignment := by
  intro s ea v hadmits
  refine ⟨_, (s.memWrite_eq_next_iff _ ea v).2 ⟨hadmits, rfl⟩, fun k hk => ?_⟩
  rw [← byteOfWord_eq_ofNat_256]
  exact (s.killReservations ea).threadView_putWord_inside ea v hk

/-- An instruction whose store is admitted completes, and its thread sees the bytes of the stored word. -/
theorem exec_completes {i : Instr} {s : State} (hwf : i.wellFormed = true)
    (hpc : s.pc ≠ Config.lastWordAddress) (hadmits : s.admits (s.eaOf i)) :
    ∃ t, exec i s = .next t ∧ ∀ k < 4,
      t.threadView s.self ((s.eaOf i).toNat + k) =
        some (byteOfWord (s.storedValue (sourceReg i)) k) := by
  refine ⟨_, (exec_eq_next_iff i s _).2 ⟨hwf, hpc, hadmits, rfl⟩, fun k hk => ?_⟩
  rw [State.threadView_advancePc, State.threadView_applyUpdate]
  exact (s.killReservations _).threadView_putWord_inside _ _ hk

/-! ## Reservations -/

theorem exec_res {i : Instr} {s t : State} (h : exec i s = .next t) :
    t.res = s.res.filter (s.keepsReservation (s.eaOf i)) := by
  obtain ⟨-, -, -, rfl⟩ := (exec_eq_next_iff i s t).1 h
  simp

theorem Launch.granuleHit_iff (l : Launch) (ea : Addr) (granule : Nat) :
    l.granuleHit ea granule = true ↔
      granule = l.granuleOf ea.toNat ∨ granule = l.granuleOf (ea.toNat + 3) := by
  simp [Launch.granuleHit]

theorem State.keepsReservation_of_not_hit {s : State} {ea : Addr} {r : Reservation}
    (h : ¬ s.launch.granuleHit ea r.granule = true) : s.keepsReservation ea r = true := by
  simp [State.keepsReservation, h]

theorem State.not_hit_of_keepsReservation {s : State} {ea : Addr} {r : Reservation}
    (hkeeps : s.keepsReservation ea r = true) (hother : r.thread ≠ s.self) :
    ¬ s.launch.granuleHit ea r.granule = true := by
  simpa [State.keepsReservation, hother] using hkeeps

/-- Settles O33: the reservations after the store are those the store keeps. -/
theorem storeKillsReservations : Obligations.StoreKillsReservations := by
  intro i s t g h hg
  obtain rfl : g = s.launch.granuleOf := funext hg
  rw [exec_res h]
  refine ⟨fun r hr => List.mem_of_mem_filter hr, fun r hr hfirst hlast => ?_, fun r hr hother => ?_⟩
  · refine List.mem_filter.2 ⟨hr, State.keepsReservation_of_not_hit ?_⟩
    rw [Launch.granuleHit_iff]
    exact not_or.2 ⟨hfirst, hlast⟩
  · have hhit := State.not_hit_of_keepsReservation (List.mem_filter.1 hr).2 hother
    rw [Launch.granuleHit_iff] at hhit
    exact not_or.1 hhit

end Sys2Proof.Machine
end

section
/-! SUPPORT. Every stop of a store, by the check that makes it (R30, R33, R34, R42, R80). -/

namespace Sys2Proof.Machine

/-! ## The checks over the four addresses -/

theorem wordAddrs_any_iff (ea : Addr) (f : Nat → Bool) :
    (wordAddrs ea).any f = true ↔ ∃ k < 4, f (ea.toNat + k) = true := by
  have hrange : wordAddrs ea = (List.range 4).map (ea.toNat + ·) := rfl
  simp [hrange]

theorem wordAddrs_any_eq_false_iff (ea : Addr) (f : Nat → Bool) :
    (wordAddrs ea).any f = false ↔ ∀ k < 4, f (ea.toNat + k) = false := by
  rw [← Bool.not_eq_true, wordAddrs_any_iff]
  simp

theorem wordAddrs_all_iff (ea : Addr) (f : Nat → Bool) :
    (wordAddrs ea).all f = true ↔ ∀ k < 4, f (ea.toNat + k) = true := by
  have hrange : wordAddrs ea = (List.range 4).map (ea.toNat + ·) := rfl
  simp [hrange]

theorem Launch.inText_iff (l : Launch) (b : Nat) :
    l.inText b = true ↔ ∃ c ∈ l.text, c.1 ≤ b ∧ b ≤ c.1 + 3 := by
  simp [Launch.inText]

theorem Launch.mapped_eq_false_iff (l : Launch) (a : Nat) :
    l.mapped a = false ↔ ∀ g ∈ l.memMap, ¬ (g.base ≤ a ∧ a < g.base + g.size) := by
  simp [Launch.mapped, inRegions, Region.holds]

/-! ## The stops of the store primitive, in R34's order -/

section MemWriteStops

variable {s : State} {ea : Addr} {v : Word}

theorem State.memWrite_addressWrap (h : 0xFFFFFFFC < ea.toNat) :
    s.memWrite ea v = .refused (.addressWrap ea) := if_pos h

theorem State.memWrite_storeToText (hea : ea.toNat ≤ 0xFFFFFFFC)
    (h : ∃ k < 4, s.launch.inText (ea.toNat + k) = true) :
    s.memWrite ea v = .refused (.storeToText ea) := by
  rw [State.memWrite, if_neg (BitVec.not_lt.2 hea), if_pos ((wordAddrs_any_iff ea _).2 h)]

variable (hea : ea.toNat ≤ 0xFFFFFFFC) (htext : ∀ k < 4, s.launch.inText (ea.toNat + k) = false)

include hea htext

theorem State.memWrite_misalignedCacheInhibited (halign : ea.toNat % 4 ≠ 0)
    (h : ∃ k < 4, s.launch.inhibited (ea.toNat + k) = true) :
    s.memWrite ea v = .refused (.misalignedCacheInhibited ea) := by
  rw [State.memWrite, if_neg (BitVec.not_lt.2 hea), (wordAddrs_any_eq_false_iff ea _).2 htext,
    if_neg Bool.false_ne_true, if_pos ⟨halign, (wordAddrs_any_iff ea _).2 h⟩]

theorem State.memWrite_storageFault
    (hinhibited : ea.toNat % 4 = 0 ∨ ∀ k < 4, s.launch.inhibited (ea.toNat + k) = false)
    (h : ∃ k < 4, s.launch.mapped (ea.toNat + k) = false) :
    s.memWrite ea v = .fault (.storageFault ea) := by
  have hpasses : ¬ (ea.toNat % 4 ≠ 0 ∧ (wordAddrs ea).any s.launch.inhibited = true) := by
    rw [← wordAddrs_any_eq_false_iff] at hinhibited
    rcases hinhibited with halign | hnone
    · exact fun hstop => hstop.1 halign
    · rw [hnone]
      exact fun hstop => Bool.false_ne_true hstop.2
  have hunmapped : ¬ (wordAddrs ea).all s.launch.mapped = true := by
    obtain ⟨k, hk, hfalse⟩ := h
    rw [wordAddrs_all_iff]
    exact fun hall => Bool.false_ne_true (hfalse.symm.trans (hall k hk))
  rw [State.memWrite, if_neg (BitVec.not_lt.2 hea), (wordAddrs_any_eq_false_iff ea _).2 htext,
    if_neg Bool.false_ne_true, if_neg hpasses, if_neg hunmapped]

end MemWriteStops

/-! ## The stops of an instruction -/

theorem exec_invalidForm {i : Instr} (s : State) (h : i.wellFormed = false) :
    exec i s = .refused (.invalidForm i.mnemonic) := by
  cases i with
  | stw => exact absurd h Bool.noConfusion
  | stwu rs ra d => exact if_pos (bne_eq_false_iff_eq.1 h)
  | stwux rs ra rb => exact if_pos (bne_eq_false_iff_eq.1 h)
  | stwx => exact absurd h Bool.noConfusion

section ExecStops

variable {i : Instr} {s : State} (hwf : i.wellFormed = true) (hpc : s.pc ≠ Config.lastWordAddress)

include hwf hpc

/-- A well-formed instruction whose program counter has a successor stops where its store does. -/
theorem exec_refused_of_memWrite {r : Refusal}
    (h : s.memWrite (s.eaOf i) (s.storedValue (sourceReg i)) = .refused r) : exec i s = .refused r := by
  rw [exec_eq_completeStore s hwf, State.completeStore, if_neg hpc, h]

theorem exec_fault_of_memWrite {r : Fault}
    (h : s.memWrite (s.eaOf i) (s.storedValue (sourceReg i)) = .fault r) : exec i s = .fault r := by
  rw [exec_eq_completeStore s hwf, State.completeStore, if_neg hpc, h]

/-- A store that overlaps a word of the text stops, with the overlap as R42 writes it. -/
theorem exec_storeToText (hea : (s.eaOf i).toNat ≤ 0xFFFFFFFC)
    (h : ∃ c ∈ s.launch.text, ∃ k < 4, c.1 ≤ (s.eaOf i).toNat + k ∧ (s.eaOf i).toNat + k ≤ c.1 + 3) :
    exec i s = .refused (.storeToText (s.eaOf i)) := by
  obtain ⟨c, hc, k, hk, hoverlap⟩ := h
  have htext : s.launch.inText ((s.eaOf i).toNat + k) = true :=
    (Launch.inText_iff _ _).2 ⟨c, hc, hoverlap⟩
  exact exec_refused_of_memWrite hwf hpc (State.memWrite_storeToText hea ⟨k, hk, htext⟩)

end ExecStops

/-- Settles O28: each stop is the check's that makes it, past the checks before it. -/
theorem storeStopsInOrder : Obligations.StoreStopsInOrder := by
  rintro i s ea rfl
  refine ⟨exec_invalidForm s, fun hwf => ⟨fun hpc => exec_pcWrap hpc hwf, fun hpc =>
    ⟨fun hea => exec_refused_of_memWrite hwf hpc (State.memWrite_addressWrap hea), fun hea =>
      ⟨exec_storeToText hwf hpc hea, fun hclear => ?_⟩⟩⟩⟩
  have htext : ∀ k < 4, s.launch.inText ((s.eaOf i).toNat + k) = false := by
    intro k hk
    rw [← Bool.not_eq_true, Launch.inText_iff]
    exact fun ⟨c, hc, hoverlap⟩ => hclear c hc k hk hoverlap
  exact ⟨fun ⟨halign, hinhibited⟩ => exec_refused_of_memWrite hwf hpc
      (State.memWrite_misalignedCacheInhibited hea htext halign hinhibited),
    fun hinhibited hunmapped => exec_fault_of_memWrite hwf hpc
      (State.memWrite_storageFault hea htext hinhibited hunmapped)⟩

/-- Settles O30: the third check of R34 asks for a misaligned address, so an aligned store passes it. -/
theorem misalignedCacheInhibitedRefused : Obligations.MisalignedCacheInhibitedRefused := by
  refine ⟨?_, fun _ => rfl⟩
  rintro i s ea v rfl rfl hwf hpc hea htext
  refine ⟨fun halign hinhibited => exec_refused_of_memWrite hwf hpc
    (State.memWrite_misalignedCacheInhibited hea htext halign hinhibited), fun halign hmapped => ?_⟩
  simp only [← byteOfWord_eq_ofNat_256]
  exact exec_completes hwf hpc ⟨hea, htext, .inl halign, hmapped⟩

/-- Settles O31: a byte in no region of the map fails the last check of R34. -/
theorem unmappedStoreFaults : Obligations.UnmappedStoreFaults := by
  rintro i s ea rfl hwf hpc hea htext hinhibited ⟨k, hk, houtside⟩
  have hunmapped := (Launch.mapped_eq_false_iff _ _).2 houtside
  exact exec_fault_of_memWrite hwf hpc
    (State.memWrite_storageFault hea htext hinhibited ⟨k, hk, hunmapped⟩)

theorem exec_launch {i : Instr} {s t : State} (h : exec i s = .next t) : t.launch = s.launch := by
  obtain ⟨-, -, -, rfl⟩ := (exec_eq_next_iff i s t).1 h
  simp

theorem State.switchTo_launch {s u : State} {n : Nat} (h : s.switchTo n = some u) :
    u.launch = s.launch := by
  rcases (s.switchTo_eq_some_iff u n).1 h with ⟨-, rfl⟩ | ⟨-, _, -, rfl⟩ <;> rfl

/-- None of the operations a step is made of changes the launch. -/
theorem step_launch {s t : State} (h : step s = .next t) : t.launch = s.launch :=
  step_preserves (P := fun u => u.launch = s.launch) (fun _ _ hs => hs)
    (fun _ _ _ hs hu => (State.switchTo_launch hu).trans hs)
    (fun _ _ _ hs ht => (exec_launch ht).trans hs)
    (fun u k hs => (u.commit_launch k).trans hs) rfl h

/-- Settles O32: R34's check of the text, and that no step changes the launch. -/
theorem storesNeverReachText : Obligations.StoresNeverReachText := by
  refine ⟨?_, fun _ _ => step_launch⟩
  rintro i s ea rfl hwf hpc hea hoverlap
  exact exec_storeToText hwf hpc hea hoverlap

end Sys2Proof.Machine
end

section
/-! SUPPORT. Waiting stores becoming visible: what a commit does to memory and to the views, and which waiting
stores it may take (R35, R38). -/

namespace Sys2Proof.Machine

/-! ## Which waiting stores may become visible -/

theorem PendingStore.overlaps_eq_false_iff (p q : PendingStore) :
    p.overlaps q = false ↔ ∀ c ∈ p.cells, ∀ d ∈ q.cells, c.1 ≠ d.1 := by
  simp only [PendingStore.overlaps, List.any_eq_false, Bool.not_eq_true, beq_eq_false_iff_ne, ne_eq]

theorem mayCommit_iff (pending : List PendingStore) (k : Nat) (p : PendingStore) :
    mayCommit pending k p = true ↔
      ∀ q ∈ pending.take k, q.thread = p.thread → q.overlaps p = false := by
  simp [mayCommit, imp_iff_not_or]

/-- An older store of the same thread, where the younger one may become visible, holds none of its bytes. -/
theorem tableGet_eq_none_of_mayCommit {pending : List PendingStore} {k a : Nat} {p : PendingStore} {b : Byte}
    (hmay : mayCommit pending k p = true) (hb : tableGet p.cells a = some b) :
    ∀ q ∈ pending.take k, q.thread = p.thread → tableGet q.cells a = none := by
  intro q hq hthread
  have hapart := (q.overlaps_eq_false_iff p).1 ((mayCommit_iff _ _ _).1 hmay q hq hthread)
  exact tableGet_eq_none fun c hc => hapart c hc (a, b) (mem_of_tableGet hb)

/-! ## What a commit does -/

section Commit

variable {s : State} {k : Nat} {p : PendingStore} (hp : s.pending[k]? = some p)

include hp

theorem State.commit_of_mayCommit (hmay : mayCommit s.pending k p = true) :
    s.commit k = { s with mem := s.mem.writeCells p.cells, pending := s.pending.eraseIdx k } := by
  rw [State.commit, hp]
  exact if_pos hmay

theorem State.commit_of_heldBack (hheld : mayCommit s.pending k p = false) : s.commit k = s := by
  rw [State.commit, hp]
  exact if_neg (Bool.not_eq_true _ ▸ hheld)

end Commit

theorem State.commit_context (s : State) (k : Nat) : (s.commit k).context = s.context := by
  simp [State.context]

theorem step_commit {s : State} {k : Nat} {rest : List Move} (h : s.schedule = .commit k :: rest) :
    step s = .next ({ s with schedule := rest }.commit k) := by
  rw [step, State.stepMachine, h]
  rfl

/-- Cells in canonical form, read in memory after they are written. -/
theorem Memory.read_writeCells (m : Memory) {cells : Table Byte} (h : tableSorted cells) (a : Nat) :
    (m.writeCells cells).read a = (tableGet cells a).or (m.read a) := by
  induction cells generalizing m with
  | nil => rfl
  | cons c cells ih =>
    obtain ⟨hfirst, hrest⟩ := List.pairwise_cons.1 h
    have hnext : (m.writeCells (c :: cells)).read a = ((m.write c.1 c.2).writeCells cells).read a := rfl
    rw [hnext, ih _ hrest, Memory.read_write, tableGet_cons]
    by_cases ha : c.1 = a
    · have hnone : tableGet cells a = none :=
        tableGet_eq_none fun d hd => ha ▸ (hfirst d.1 (List.mem_map_of_mem hd)).ne'
      rw [hnone, if_pos ha, if_pos ha, Option.none_or, Option.some_or]
    · rw [if_neg ha, if_neg ha]

/-- Settles O44: the two branches of a commit, and what the cells written read as. -/
theorem pendingStoreBecomesVisible : Obligations.PendingStoreBecomesVisible := by
  intro s k rest p hsched hp hsorted
  refine ⟨_, step_commit hsched, State.commit_context _ k, State.commit_others _ k,
    State.commit_res _ k, fun hmay => ?_, fun hheld => ?_⟩
  · rw [State.commit_of_mayCommit (s := { s with schedule := rest }) hp hmay]
    refine ⟨rfl, fun a b hb => ?_, fun a ha => ?_⟩
    · rw [Memory.read_writeCells _ hsorted, hb, Option.some_or]
    · rw [Memory.read_writeCells _ hsorted, ha, Option.none_or]
  · rw [State.commit_of_heldBack (s := { s with schedule := rest }) hp hheld]
    exact ⟨rfl, rfl⟩

/-! ## The view of the thread whose store becomes visible -/

theorem viewThrough_cons_own (a : Nat) (p : PendingStore) (newer : List PendingStore)
    (below : Option Byte) :
    viewThrough p.thread a (p :: newer) below =
      viewThrough p.thread a newer ((tableGet p.cells a).or below) := by
  rw [viewThrough, List.foldl_cons, if_pos rfl]
  rfl

/-- Waiting stores of which none of the thread's own holds a byte at an address do not show there. -/
theorem viewThrough_eq_self_of_own {n a : Nat} {pending : List PendingStore}
    (h : ∀ p ∈ pending, p.thread = n → tableGet p.cells a = none) (below : Option Byte) :
    viewThrough n a pending below = below := by
  induction pending with
  | nil => rfl
  | cons p ps ih =>
    obtain ⟨hp, hps⟩ := List.forall_mem_cons.1 h
    by_cases hn : p.thread = n
    · subst hn
      rw [viewThrough_cons_own, hp rfl, Option.none_or, ih hps]
    · rw [viewThrough, List.foldl_cons, if_neg hn]
      exact ih hps

/-- Where a store may become visible, moving it below the older ones that wait does not change what its
thread sees. -/
theorem viewThrough_take_of_mayCommit {pending : List PendingStore} {k : Nat} {p : PendingStore}
    (hmay : mayCommit pending k p = true) (a : Nat) (below : Option Byte) :
    viewThrough p.thread a (pending.take k) ((tableGet p.cells a).or below) =
      (tableGet p.cells a).or (viewThrough p.thread a (pending.take k) below) := by
  cases hb : tableGet p.cells a with
  | none => rfl
  | some b => exact viewThrough_eq_self_of_own (tableGet_eq_none_of_mayCommit hmay hb) _

/-- Settles O45: the store's bytes go from their place among the waiting stores to memory below them all, and
no older store of the thread holds one of them. -/
theorem commitKeepsThreadView : Obligations.CommitKeepsThreadView := by
  intro s k p a hp hsorted
  cases hmay : mayCommit s.pending k p with
  | false => rw [State.commit_of_heldBack hp hmay]
  | true =>
    obtain ⟨hk, hpk⟩ := List.getElem?_eq_some_iff.1 hp
    have hsplit : s.pending = s.pending.take k ++ p :: s.pending.drop (k + 1) := by
      rw [← hpk, ← List.drop_eq_getElem_cons hk, List.take_append_drop]
    rw [State.commit_of_mayCommit hp hmay]
    calc viewThrough p.thread a (s.pending.eraseIdx k) ((s.mem.writeCells p.cells).read a)
        = viewThrough p.thread a (s.pending.drop (k + 1))
            (viewThrough p.thread a (s.pending.take k) ((tableGet p.cells a).or (s.mem.read a))) := by
          rw [List.eraseIdx_eq_take_drop_succ, viewThrough_append, Memory.read_writeCells _ hsorted]
      _ = viewThrough p.thread a (p :: s.pending.drop (k + 1))
            (viewThrough p.thread a (s.pending.take k) (s.mem.read a)) := by
          rw [viewThrough_take_of_mayCommit hmay, viewThrough_cons_own]
      _ = viewThrough p.thread a s.pending (s.mem.read a) := by
          rw [← viewThrough_append, ← hsplit]

/-! ## The bytes of a misaligned store -/

/-- Of waiting stores at different addresses, one byte each, any may become visible. -/
theorem mayCommit_pendingOf_misaligned {n k : Nat} {ea : Addr} (v : Word) (h : ea.toNat % 4 ≠ 0) :
    mayCommit (pendingOf n ea v) k ⟨n, [(ea.toNat + k, byteOfWord v k)]⟩ = true := by
  rw [pendingOf_misaligned v h, mayCommit_iff]
  intro q hq _
  rw [← List.map_take, List.take_range] at hq
  obtain ⟨j, hj, rfl⟩ := List.mem_map.1 hq
  have hjk : j < k := (List.mem_range.1 hj).trans_le (min_le_left k 4)
  rw [PendingStore.overlaps_eq_false_iff]
  simp only [List.forall_mem_singleton]
  omega

/-- Settles O46: the four bytes wait by themselves, at four different addresses. -/
theorem eachMisalignedByteMayBecomeVisibleFirst : Obligations.EachMisalignedByteMayBecomeVisibleFirst := by
  intro i s t h hothers hnone halign k hk
  obtain ⟨-, hpending⟩ := exec_pending_shared h hothers
  rw [hpending, hnone, List.nil_append]
  refine ⟨_, ?_, mayCommit_pendingOf_misaligned _ halign, rfl⟩
  rw [pendingOf_misaligned _ halign, List.getElem?_map, List.getElem?_range hk]
  rfl

end Sys2Proof.Machine
end

section
/-! SUPPORT. The fields OPCD, XO and bit 31 of a word, which name its instruction, and the two word layouts of
R46 and R48: the fields of a word that is laid out, and that a word is laid out from its own fields (R54). -/

namespace Sys2Proof

/-- The primary opcode OPCD, bits 0 to 5 (R46, R48). -/
def opcd (w : Word) : BitVec 6 := msb0 w 0 5

/-- The extended opcode XO, bits 21 to 30 (R48). -/
def xo (w : Word) : BitVec 10 := msb0 w 21 30

/-- Bit 31, which is 0 in an X-form store (R56). -/
def bit31 (w : Word) : BitVec 1 := msb0 w 31 31

theorem bit31_eq_one_iff (w : Word) : msb0 w 31 31 = 1 ↔ bit31 w = 1 := by rw [bit31]

theorem opcd_eq_iff (w : Word) (op : BitVec 6) : opcd w = op ↔ w.toNat / 2 ^ 26 = op.toNat := by
  rw [← BitVec.toNat_inj, opcd, msb0_opcd_toNat]

theorem xo_eq_iff (w : Word) (ext : BitVec 10) : xo w = ext ↔ w.toNat / 2 % 1024 = ext.toNat := by
  rw [← BitVec.toNat_inj, xo, msb0_toNat]
  rfl

theorem bit31_eq_iff (w : Word) (last : BitVec 1) : bit31 w = last ↔ w.toNat % 2 = last.toNat := by
  rw [← BitVec.toNat_inj, bit31, msb0_lastBit_toNat]

theorem bit31_eq_zero_of_ne_one {w : Word} (h : bit31 w ≠ 1) : bit31 w = 0 :=
  (BitVec.eq_zero_or_eq_one _).resolve_right h

theorem rsField_eq_iff (w : Word) (r : Reg) : rsField w = r ↔ w.toNat / 2 ^ 21 % 32 = r.val := by
  rw [Fin.ext_iff, rsField, regField_val]

theorem raField_eq_iff (w : Word) (r : Reg) : raField w = r ↔ w.toNat / 2 ^ 16 % 32 = r.val := by
  rw [Fin.ext_iff, raField, regField_val]

theorem rbField_eq_iff (w : Word) (r : Reg) : rbField w = r ↔ w.toNat / 2 ^ 11 % 32 = r.val := by
  rw [Fin.ext_iff, rbField, regField_val]

theorem dField_eq_iff (w : Word) (d : BitVec 16) : dField w = d ↔ w.toNat % 65536 = d.toNat := by
  rw [← BitVec.toNat_inj, dField_toNat]

/-! ## The D form -/

/-- The D-form layout, whatever its primary opcode (R46). -/
def dWord (op : BitVec 6) (rs ra : Reg) (d : BitVec 16) : Word :=
  BitVec.ofNat 32 (op.toNat * 2 ^ 26 + rs.val * 2 ^ 21 + ra.val * 2 ^ 16 + d.toNat)

theorem encode_stw (rs ra : Reg) (d : BitVec 16) : encode (.stw rs ra d) = dWord 36 rs ra d := rfl

theorem encode_stwu (rs ra : Reg) (d : BitVec 16) : encode (.stwu rs ra d) = dWord 37 rs ra d := rfl

section DForm

variable (op : BitVec 6) (rs ra : Reg) (d : BitVec 16)

theorem dWord_toNat : (dWord op rs ra d).toNat =
    op.toNat * 2 ^ 26 + rs.val * 2 ^ 21 + ra.val * 2 ^ 16 + d.toNat := by
  rw [dWord, BitVec.toNat_ofNat]
  omega

theorem opcd_dWord : opcd (dWord op rs ra d) = op := by
  rw [opcd_eq_iff, dWord_toNat]
  omega

theorem rsField_dWord : rsField (dWord op rs ra d) = rs := by
  rw [rsField_eq_iff, dWord_toNat]
  omega

theorem raField_dWord : raField (dWord op rs ra d) = ra := by
  rw [raField_eq_iff, dWord_toNat]
  omega

theorem dField_dWord : dField (dWord op rs ra d) = d := by
  rw [dField_eq_iff, dWord_toNat]
  omega

end DForm

/-- A word is the D-form layout of its own fields. -/
theorem dWord_fields (w : Word) : dWord (opcd w) (rsField w) (raField w) (dField w) = w := by
  have hop := (opcd_eq_iff w _).1 rfl
  have hrs := (rsField_eq_iff w _).1 rfl
  have hra := (raField_eq_iff w _).1 rfl
  have hd := (dField_eq_iff w _).1 rfl
  apply BitVec.eq_of_toNat_eq
  rw [dWord_toNat]
  omega

/-! ## The X form -/

/-- The X-form layout under primary opcode 31, whatever its extended opcode and its bit 31 (R48). -/
def xWord (ext : BitVec 10) (last : BitVec 1) (rs ra rb : Reg) : Word :=
  BitVec.ofNat 32 (31 * 2 ^ 26 + (2 * ext.toNat + last.toNat) + rs.val * 2 ^ 21 + ra.val * 2 ^ 16 +
    rb.val * 2 ^ 11)

theorem encode_stwux (rs ra rb : Reg) : encode (.stwux rs ra rb) = xWord 183 0 rs ra rb := rfl

theorem encode_stwx (rs ra rb : Reg) : encode (.stwx rs ra rb) = xWord 151 0 rs ra rb := rfl

section XForm

variable (ext : BitVec 10) (last : BitVec 1) (rs ra rb : Reg)

theorem xWord_toNat : (xWord ext last rs ra rb).toNat =
    31 * 2 ^ 26 + (2 * ext.toNat + last.toNat) + rs.val * 2 ^ 21 + ra.val * 2 ^ 16 + rb.val * 2 ^ 11 := by
  rw [xWord, BitVec.toNat_ofNat]
  omega

theorem opcd_xWord : opcd (xWord ext last rs ra rb) = 31 := by
  rw [opcd_eq_iff, xWord_toNat]
  show _ = 31
  omega

theorem xo_xWord : xo (xWord ext last rs ra rb) = ext := by
  rw [xo_eq_iff, xWord_toNat]
  omega

theorem bit31_xWord : bit31 (xWord ext last rs ra rb) = last := by
  rw [bit31_eq_iff, xWord_toNat]
  omega

theorem rsField_xWord : rsField (xWord ext last rs ra rb) = rs := by
  rw [rsField_eq_iff, xWord_toNat]
  omega

theorem raField_xWord : raField (xWord ext last rs ra rb) = ra := by
  rw [raField_eq_iff, xWord_toNat]
  omega

theorem rbField_xWord : rbField (xWord ext last rs ra rb) = rb := by
  rw [rbField_eq_iff, xWord_toNat]
  omega

/-- Setting bit 31 of a layout with that bit clear (R56). -/
theorem xWord_or_one : xWord ext 0 rs ra rb ||| 1 = xWord ext 1 rs ra rb := by
  have heven : (xWord ext 0 rs ra rb).toNat % 2 = 0 := (bit31_eq_iff _ 0).1 (bit31_xWord ..)
  apply BitVec.eq_of_toNat_eq
  calc (xWord ext 0 rs ra rb ||| 1).toNat
      = 2 ^ 1 * ((xWord ext 0 rs ra rb).toNat / 2) ||| 1 := by
        rw [BitVec.toNat_or, pow_one, Nat.mul_div_cancel' (Nat.dvd_of_mod_eq_zero heven)]
        rfl
    _ = (xWord ext 0 rs ra rb).toNat + 1 := by
        rw [← Nat.two_pow_add_eq_or_of_lt (by omega)]
        omega
    _ = (xWord ext 1 rs ra rb).toNat := by
        simp only [xWord_toNat, BitVec.ofNat_eq_ofNat, BitVec.toNat_ofNat]
        omega

end XForm

/-- A word with primary opcode 31 is the X-form layout of its own fields. -/
theorem xWord_fields {w : Word} (hop : opcd w = 31) :
    xWord (xo w) (bit31 w) (rsField w) (raField w) (rbField w) = w := by
  have hop : w.toNat / 2 ^ 26 = 31 := (opcd_eq_iff w 31).1 hop
  have hxo := (xo_eq_iff w _).1 rfl
  have hlast := (bit31_eq_iff w _).1 rfl
  have hrs := (rsField_eq_iff w _).1 rfl
  have hra := (raField_eq_iff w _).1 rfl
  have hrb := (rbField_eq_iff w _).1 rfl
  apply BitVec.eq_of_toNat_eq
  rw [xWord_toNat]
  omega

end Sys2Proof
end

section
/-! SUPPORT. The masks of R53 and R55 as conditions on the fields OPCD, XO and bit 31. -/

namespace Sys2Proof

open Laws.EncodesInRow (maskD_iff maskX_iff)

/-- Clearing the last bit of a word leaves twice its half. -/
theorem clearLastBit_toNat (w : Word) : (w &&& 0xFFFFFFFE).toNat = 2 * (w.toNat / 2) := by
  have hshift : w &&& (0xFFFFFFFE : Word) = w >>> 1 <<< 1 := by
    ext i hi
    interval_cases i <;> simp
  have hw := w.isLt
  rw [hshift, BitVec.toNat_shiftLeft, BitVec.toNat_ushiftRight]
  omega

section Masks

variable (w : Word) (op : BitVec 6) (ext : BitVec 10) (last : BitVec 1)

/-- The mask 0xFC000000 keeps OPCD. -/
theorem mask_opcd_iff : w &&& 0xFC000000 = BitVec.ofNat 32 (op.toNat * 2 ^ 26) ↔ opcd w = op := by
  rw [maskD_iff w op.toNat (by omega), opcd_eq_iff]

/-- The mask 0xFC0007FE keeps OPCD and XO. -/
theorem mask_xo_iff : w &&& 0xFC0007FE = BitVec.ofNat 32 (op.toNat * 2 ^ 26 + 2 * ext.toNat) ↔
    opcd w = op ∧ xo w = ext := by
  have hsplit : w &&& 0xFC0007FE = w &&& 0xFFFFFFFE &&& 0xFC0007FF :=
    (BitVec.and_assoc w 0xFFFFFFFE 0xFC0007FF).symm
  rw [hsplit, maskX_iff _ op.toNat (2 * ext.toNat) (by omega) (by omega), clearLastBit_toNat,
    opcd_eq_iff, xo_eq_iff]
  omega

/-- The mask 0xFC0007FF keeps OPCD, XO and bit 31. -/
theorem mask_bit31_iff :
    w &&& 0xFC0007FF = BitVec.ofNat 32 (op.toNat * 2 ^ 26 + (2 * ext.toNat + last.toNat)) ↔
      opcd w = op ∧ xo w = ext ∧ bit31 w = last := by
  rw [maskX_iff w op.toNat (2 * ext.toNat + last.toNat) (by omega) (by omega), opcd_eq_iff, xo_eq_iff,
    bit31_eq_iff]
  omega

theorem mask_stw_iff : w &&& 0xFC000000 = 0x90000000 ↔ opcd w = 36 := mask_opcd_iff w 36

theorem mask_stwu_iff : w &&& 0xFC000000 = 0x94000000 ↔ opcd w = 37 := mask_opcd_iff w 37

theorem mask_xo183_iff : w &&& 0xFC0007FE = 0x7C00016E ↔ opcd w = 31 ∧ xo w = 183 := mask_xo_iff w 31 183

theorem mask_xo151_iff : w &&& 0xFC0007FE = 0x7C00012E ↔ opcd w = 31 ∧ xo w = 151 := mask_xo_iff w 31 151

theorem mask_stwux_iff : w &&& 0xFC0007FF = 0x7C00016E ↔ opcd w = 31 ∧ xo w = 183 ∧ bit31 w = 0 :=
  mask_bit31_iff w 31 183 0

theorem mask_stwx_iff : w &&& 0xFC0007FF = 0x7C00012E ↔ opcd w = 31 ∧ xo w = 151 ∧ bit31 w = 0 :=
  mask_bit31_iff w 31 151 0

theorem mask_stwuxReserved_iff : w &&& 0xFC0007FF = 0x7C00016F ↔ opcd w = 31 ∧ xo w = 183 ∧ bit31 w = 1 :=
  mask_bit31_iff w 31 183 1

theorem mask_stwxReserved_iff : w &&& 0xFC0007FF = 0x7C00012F ↔ opcd w = 31 ∧ xo w = 151 ∧ bit31 w = 1 :=
  mask_bit31_iff w 31 151 1

end Masks

end Sys2Proof
end

section
/-! SUPPORT. What the decoder finds in a word, as a relation with one rule for each answer of R55, and that the
decoder is that relation. -/

namespace Sys2Proof

/-- What R55 answers for a word, by its fields OPCD, XO, bit 31 and RA. -/
inductive Decodes (w : Word) : Decoded → Prop
  | stw (hop : opcd w = 36) : Decodes w (.instr (.stw (rsField w) (raField w) (dField w)))
  | stwu (hop : opcd w = 37) (hra : raField w ≠ 0) :
      Decodes w (.instr (.stwu (rsField w) (raField w) (dField w)))
  | stwuInvalid (hop : opcd w = 37) (hra : raField w = 0) : Decodes w (.invalidForm .stwu w)
  | stwux (hop : opcd w = 31) (hxo : xo w = 183) (hlast : bit31 w = 0) (hra : raField w ≠ 0) :
      Decodes w (.instr (.stwux (rsField w) (raField w) (rbField w)))
  | stwuxInvalid (hop : opcd w = 31) (hxo : xo w = 183) (hlast : bit31 w = 0) (hra : raField w = 0) :
      Decodes w (.invalidForm .stwux w)
  | stwuxReserved (hop : opcd w = 31) (hxo : xo w = 183) (hlast : bit31 w = 1) :
      Decodes w (.reservedRc .stwux w)
  | stwx (hop : opcd w = 31) (hxo : xo w = 151) (hlast : bit31 w = 0) :
      Decodes w (.instr (.stwx (rsField w) (raField w) (rbField w)))
  | stwxReserved (hop : opcd w = 31) (hxo : xo w = 151) (hlast : bit31 w = 1) :
      Decodes w (.reservedRc .stwx w)
  | notInSpec (hstw : opcd w ≠ 36) (hstwu : opcd w ≠ 37) (hstwux : ¬ (opcd w = 31 ∧ xo w = 183))
      (hstwx : ¬ (opcd w = 31 ∧ xo w = 151)) : Decodes w (.notInSpec w)

theorem decodes_decode (w : Word) : Decodes w (decode w) := by
  simp only [decode, mask_stw_iff, mask_stwu_iff, mask_xo183_iff, mask_xo151_iff, bit31_eq_one_iff]
  split_ifs with hstw hstwu hra hstwux hlast hra hstwx hlast
  · exact .stw hstw
  · exact .stwuInvalid hstwu hra
  · exact .stwu hstwu hra
  · exact .stwuxReserved hstwux.1 hstwux.2 hlast
  · exact .stwuxInvalid hstwux.1 hstwux.2 (bit31_eq_zero_of_ne_one hlast) hra
  · exact .stwux hstwux.1 hstwux.2 (bit31_eq_zero_of_ne_one hlast) hra
  · exact .stwxReserved hstwx.1 hstwx.2 hlast
  · exact .stwx hstwx.1 hstwx.2 (bit31_eq_zero_of_ne_one hlast)
  · exact .notInSpec hstw hstwu hstwux hstwx

theorem Decodes.decode_eq {w : Word} {x : Decoded} (h : Decodes w x) : decode w = x := by
  simp only [decode, mask_stw_iff, mask_stwu_iff, mask_xo183_iff, mask_xo151_iff, bit31_eq_one_iff]
  cases h with
  | stw hop => simp [hop]
  | stwu hop hra => simp [hop, hra]
  | stwuInvalid hop hra => simp [hop, hra]
  | stwux hop hxo hlast hra => simp [hop, hxo, hlast, hra]
  | stwuxInvalid hop hxo hlast hra => simp [hop, hxo, hlast, hra]
  | stwuxReserved hop hxo hlast => simp [hop, hxo, hlast]
  | stwx hop hxo hlast => simp [hop, hxo, hlast]
  | stwxReserved hop hxo hlast => simp [hop, hxo, hlast]
  | notInSpec hstw hstwu hstwux hstwx => rw [if_neg hstw, if_neg hstwu, if_neg hstwux, if_neg hstwx]

theorem decode_eq_iff {w : Word} {x : Decoded} : decode w = x ↔ Decodes w x :=
  ⟨fun h => h ▸ decodes_decode w, Decodes.decode_eq⟩

end Sys2Proof
end

section
/-! SUPPORT. What the decoder finds in a laid-out word, and from it the two round trips (R54 to R57). -/

namespace Sys2Proof

section LaidOut

variable (rs ra rb : Reg) (d : BitVec 16)

theorem decode_dWord_stw : decode (dWord 36 rs ra d) = .instr (.stw rs ra d) := by
  have h := (Decodes.stw (opcd_dWord 36 rs ra d)).decode_eq
  rwa [rsField_dWord, raField_dWord, dField_dWord] at h

theorem decode_dWord_stwu (hra : ra ≠ 0) : decode (dWord 37 rs ra d) = .instr (.stwu rs ra d) := by
  have h := (Decodes.stwu (opcd_dWord 37 rs ra d) ((raField_dWord ..).trans_ne hra)).decode_eq
  rwa [rsField_dWord, raField_dWord, dField_dWord] at h

theorem decode_dWord_stwuInvalid : decode (dWord 37 rs 0 d) = .invalidForm .stwu (dWord 37 rs 0 d) :=
  (Decodes.stwuInvalid (opcd_dWord ..) (raField_dWord ..)).decode_eq

theorem decode_xWord_stwux (hra : ra ≠ 0) : decode (xWord 183 0 rs ra rb) = .instr (.stwux rs ra rb) := by
  have h := (Decodes.stwux (opcd_xWord 183 0 rs ra rb) (xo_xWord ..) (bit31_xWord ..)
    ((raField_xWord ..).trans_ne hra)).decode_eq
  rwa [rsField_xWord, raField_xWord, rbField_xWord] at h

theorem decode_xWord_stwuxInvalid :
    decode (xWord 183 0 rs 0 rb) = .invalidForm .stwux (xWord 183 0 rs 0 rb) :=
  (Decodes.stwuxInvalid (opcd_xWord ..) (xo_xWord ..) (bit31_xWord ..) (raField_xWord ..)).decode_eq

theorem decode_xWord_stwuxReserved :
    decode (xWord 183 1 rs ra rb) = .reservedRc .stwux (xWord 183 1 rs ra rb) :=
  (Decodes.stwuxReserved (opcd_xWord ..) (xo_xWord ..) (bit31_xWord ..)).decode_eq

theorem decode_xWord_stwx : decode (xWord 151 0 rs ra rb) = .instr (.stwx rs ra rb) := by
  have h := (Decodes.stwx (opcd_xWord 151 0 rs ra rb) (xo_xWord ..) (bit31_xWord ..)).decode_eq
  rwa [rsField_xWord, raField_xWord, rbField_xWord] at h

theorem decode_xWord_stwxReserved :
    decode (xWord 151 1 rs ra rb) = .reservedRc .stwx (xWord 151 1 rs ra rb) :=
  (Decodes.stwxReserved (opcd_xWord ..) (xo_xWord ..) (bit31_xWord ..)).decode_eq

end LaidOut

/-- Settles O3: the decoder reads back the fields each instruction's word is laid out from. -/
theorem decodeEncodeRoundTrip : Obligations.DecodeEncodeRoundTrip := by
  intro i hwf
  cases i with
  | stw rs ra d => rw [encode_stw, decode_dWord_stw]
  | stwu rs ra d => rw [encode_stwu, decode_dWord_stwu rs ra d (bne_iff_ne.1 hwf)]
  | stwux rs ra rb => rw [encode_stwux, decode_xWord_stwux rs ra rb (bne_iff_ne.1 hwf)]
  | stwx rs ra rb => rw [encode_stwx, decode_xWord_stwx]

/-- Settles O4: an instruction is decoded in four ways, each from a word that is laid out from its own fields. -/
theorem encodeDecodeRoundTrip : Obligations.EncodeDecodeRoundTrip := by
  intro w i h
  cases decode_eq_iff.1 h with
  | stw hop => exact ⟨rfl, by rw [encode_stw, ← hop, dWord_fields]⟩
  | stwu hop hra => exact ⟨bne_iff_ne.2 hra, by rw [encode_stwu, ← hop, dWord_fields]⟩
  | stwux hop hxo hlast hra =>
    exact ⟨bne_iff_ne.2 hra, by rw [encode_stwux, ← hxo, ← hlast, xWord_fields hop]⟩
  | stwx hop hxo hlast => exact ⟨rfl, by rw [encode_stwx, ← hxo, ← hlast, xWord_fields hop]⟩

end Sys2Proof
end

section
/-! SUPPORT. The words of each row of the opcode table and of each verdict, by their fields (R53, R55 to
R58). -/

namespace Sys2Proof

section Rows

variable (w : Word)

theorem opcd_stw_iff : opcd w = 36 ↔ ∃ rs ra d, decode w = .instr (.stw rs ra d) := by
  constructor
  · exact fun hop => ⟨_, _, _, (Decodes.stw hop).decode_eq⟩
  · rintro ⟨rs, ra, d, h⟩
    cases decode_eq_iff.1 h with
    | stw hop => exact hop

/-- The row of `stwu`: the instruction where RA is not 0, the invalid form where it is (R57). -/
theorem opcd_stwu_iff : opcd w = 37 ↔
    (∃ rs ra d, decode w = .instr (.stwu rs ra d)) ∨ decode w = .invalidForm .stwu w := by
  constructor
  · intro hop
    by_cases hra : raField w = 0
    · exact .inr (Decodes.stwuInvalid hop hra).decode_eq
    · exact .inl ⟨_, _, _, (Decodes.stwu hop hra).decode_eq⟩
  · rintro (⟨rs, ra, d, h⟩ | h)
    · cases decode_eq_iff.1 h with
      | stwu hop => exact hop
    · cases decode_eq_iff.1 h with
      | stwuInvalid hop => exact hop

/-- The row of `stwux`: the instruction where RA is not 0, the invalid form where it is (R57). -/
theorem fields_stwux_iff : opcd w = 31 ∧ xo w = 183 ∧ bit31 w = 0 ↔
    (∃ rs ra rb, decode w = .instr (.stwux rs ra rb)) ∨ decode w = .invalidForm .stwux w := by
  constructor
  · rintro ⟨hop, hxo, hlast⟩
    by_cases hra : raField w = 0
    · exact .inr (Decodes.stwuxInvalid hop hxo hlast hra).decode_eq
    · exact .inl ⟨_, _, _, (Decodes.stwux hop hxo hlast hra).decode_eq⟩
  · rintro (⟨rs, ra, rb, h⟩ | h)
    · cases decode_eq_iff.1 h with
      | stwux hop hxo hlast => exact ⟨hop, hxo, hlast⟩
    · cases decode_eq_iff.1 h with
      | stwuxInvalid hop hxo hlast => exact ⟨hop, hxo, hlast⟩

theorem fields_stwx_iff : opcd w = 31 ∧ xo w = 151 ∧ bit31 w = 0 ↔
    ∃ rs ra rb, decode w = .instr (.stwx rs ra rb) := by
  constructor
  · exact fun ⟨hop, hxo, hlast⟩ => ⟨_, _, _, (Decodes.stwx hop hxo hlast).decode_eq⟩
  · rintro ⟨rs, ra, rb, h⟩
    cases decode_eq_iff.1 h with
    | stwx hop hxo hlast => exact ⟨hop, hxo, hlast⟩

/-- The rows differ in OPCD or, under OPCD 31, in XO. -/
theorem opcodeRows_disjoint : opcodeRows.Pairwise (fun r q => ¬ (r.selects w = true ∧ q.selects w = true)) := by
  simp only [opcodeRows, List.pairwise_cons, List.forall_mem_cons, OpcodeRow.selects, beq_iff_eq,
    mask_stw_iff, mask_stwu_iff, mask_stwux_iff, mask_stwx_iff]
  simp +contextual

theorem decode_invalidForm_iff (m : Mnemonic) (v : Word) : decode w = .invalidForm m v ↔
    v = w ∧ raField w = 0 ∧
      ((m = .stwu ∧ opcd w = 37) ∨ (m = .stwux ∧ opcd w = 31 ∧ xo w = 183 ∧ bit31 w = 0)) := by
  constructor
  · intro h
    cases decode_eq_iff.1 h with
    | stwuInvalid hop hra => exact ⟨rfl, hra, .inl ⟨rfl, hop⟩⟩
    | stwuxInvalid hop hxo hlast hra => exact ⟨rfl, hra, .inr ⟨rfl, hop, hxo, hlast⟩⟩
  · rintro ⟨rfl, hra, ⟨rfl, hop⟩ | ⟨rfl, hop, hxo, hlast⟩⟩
    · exact (Decodes.stwuInvalid hop hra).decode_eq
    · exact (Decodes.stwuxInvalid hop hxo hlast hra).decode_eq

theorem decode_reservedRc_iff (m : Mnemonic) (v : Word) : decode w = .reservedRc m v ↔
    v = w ∧ ((m = .stwux ∧ opcd w = 31 ∧ xo w = 183 ∧ bit31 w = 1) ∨
      (m = .stwx ∧ opcd w = 31 ∧ xo w = 151 ∧ bit31 w = 1)) := by
  constructor
  · intro h
    cases decode_eq_iff.1 h with
    | stwuxReserved hop hxo hlast => exact ⟨rfl, .inl ⟨rfl, hop, hxo, hlast⟩⟩
    | stwxReserved hop hxo hlast => exact ⟨rfl, .inr ⟨rfl, hop, hxo, hlast⟩⟩
  · rintro ⟨rfl, ⟨rfl, hop, hxo, hlast⟩ | ⟨rfl, hop, hxo, hlast⟩⟩
    · exact (Decodes.stwuxReserved hop hxo hlast).decode_eq
    · exact (Decodes.stwxReserved hop hxo hlast).decode_eq

theorem decode_notInSpec_iff (v : Word) : decode w = .notInSpec v ↔
    v = w ∧ opcd w ≠ 36 ∧ opcd w ≠ 37 ∧ ¬ (opcd w = 31 ∧ xo w = 183) ∧ ¬ (opcd w = 31 ∧ xo w = 151) := by
  constructor
  · intro h
    cases decode_eq_iff.1 h with
    | notInSpec hstw hstwu hstwux hstwx => exact ⟨rfl, hstw, hstwu, hstwux, hstwx⟩
  · rintro ⟨rfl, hstw, hstwu, hstwux, hstwx⟩
    exact (Decodes.notInSpec hstw hstwu hstwux hstwx).decode_eq

end Rows

/-- Settles O5: each row's mask is its condition on the fields, which says what the decoder finds. -/
theorem decoderFollowsOpcodeTable : Obligations.DecoderFollowsOpcodeTable := fun w =>
  ⟨(mask_stw_iff w).trans (opcd_stw_iff w), (mask_stwu_iff w).trans (opcd_stwu_iff w),
    (mask_stwux_iff w).trans (fields_stwux_iff w), (mask_stwx_iff w).trans (fields_stwx_iff w),
    opcodeRows_disjoint w⟩

/-- Settles O6: each verdict's words by their fields, with the masks read as conditions on them. -/
theorem decoderVerdictsExact : Obligations.DecoderVerdictsExact := by
  intro w
  have hra : w.toNat / 2 ^ 16 % 32 = 0 ↔ raField w = 0 := (raField_eq_iff w 0).symm
  refine ⟨fun m v => ?_, fun m v => ?_, fun v => ?_⟩
  · rw [hra, mask_stwu_iff, mask_stwux_iff, decode_invalidForm_iff]
  · rw [mask_stwuxReserved_iff, mask_stwxReserved_iff, decode_reservedRc_iff]
  · simp only [ne_eq, mask_stw_iff, mask_stwu_iff, mask_xo183_iff, mask_xo151_iff, decode_notInSpec_iff]

/-- Settles O1: the decoder evaluated on the twelve words. -/
theorem specWordsDecode : Obligations.SpecWordsDecode := by
  unfold Obligations.SpecWordsDecode
  decide

end Sys2Proof
end

section
/-! SUPPORT. The machine at the words of the verdicts a store instruction's encoding can meet (R56, R57). -/

namespace Sys2Proof.Machine

/-- Settles O7: setting bit 31 of an X-form store's word gives the layout the decoder reserves, and the step
refuses by the verdict's name. -/
theorem recordBitRefused : Obligations.RecordBitRefused := by
  refine ⟨fun rs ra rb => ?_, fun s m w v hunmarked hsched hend halign htext hd => ?_⟩
  · rw [encode_stwux, encode_stwx, xWord_or_one, xWord_or_one]
    exact ⟨decode_xWord_stwuxReserved rs ra rb, decode_xWord_stwxReserved rs ra rb⟩
  · rw [step_of_fetch_word hsched hunmarked hend (State.fetch_word halign hend htext), hd,
      State.execDecoded]

/-- Settles O8: with RA field 0 the decoder and the meaning name the invalid form; with RS = RA the word is
read back as any well-formed instruction's is. -/
theorem invalidUpdateFormsRefused : Obligations.InvalidUpdateFormsRefused :=
  ⟨fun rs d s => ⟨decode_dWord_stwuInvalid rs d, exec_invalidForm s rfl⟩,
    fun rs rb s => ⟨decode_xWord_stwuxInvalid rs rb, exec_invalidForm s rfl⟩,
    fun ra rb d hra =>
      ⟨decodeEncodeRoundTrip (.stwu ra ra d) (bne_iff_ne.2 hra),
        decodeEncodeRoundTrip (.stwux ra ra rb) (bne_iff_ne.2 hra)⟩⟩

end Sys2Proof.Machine
end

section
/-! SUPPORT. Address arithmetic: the low word of a sum is the sum of the low words (R50, R64, R72). -/

namespace Sys2Proof.Machine

theorem trunc32_add (x y : DWord) : trunc32 (x + y) = trunc32 x + trunc32 y :=
  BitVec.setWidth_add x y (by omega)

theorem effectiveAddress_toNat (base addend : DWord) :
    (effectiveAddress base addend).toNat =
      (base.toNat % 2 ^ 32 + addend.toNat % 2 ^ 32) % 2 ^ 32 := by
  rw [effectiveAddress, trunc32_add, BitVec.toNat_add, trunc32, trunc32, BitVec.toNat_setWidth,
    BitVec.toNat_setWidth]

/-- The sign-extended displacement is its signed value modulo 2^64 (R8, R50). -/
theorem sext64_toNat (d : BitVec 16) : ((sext64 d).toNat : Int) = d.toInt % 2 ^ 64 := by
  have hsigned : (sext64 d).toInt = d.toInt := BitVec.toInt_signExtend_of_le (by omega)
  have hcond := BitVec.toInt_eq_toNat_cond (sext64 d)
  have hlt := (sext64 d).isLt
  rw [← hsigned]
  omega

/-- Settles O37: both sums are low words of 64-bit ones, and 2^32 divides 2^64. -/
theorem effectiveAddressModulo : Obligations.EffectiveAddressModulo := by
  refine ⟨effectiveAddress_toNat, fun base d => ?_⟩
  have hd := sext64_toNat d
  rw [effectiveAddress_toNat]
  omega

end Sys2Proof.Machine
end

section
/-! SUPPORT. States that differ only in the high words of their registers: every operation of an instruction
keeps them so (R32, R64, R65, R72). -/

namespace Sys2Proof.Machine

/-- Two states alike but for the high words of the registers. -/
structure State.AlikeInLowWords (s t : State) : Prop where
  rest : t = { s with gpr := t.gpr }
  low (r : Reg) : trunc32 (s.readGpr r) = trunc32 (t.readGpr r)

section AlikeInLowWords

variable {s t : State} (h : s.AlikeInLowWords t)

include h

/-- What an instruction reads of its registers is their low words. -/
theorem State.AlikeInLowWords.storedValue_eq (r : Reg) : s.storedValue r = t.storedValue r := h.low r

theorem State.AlikeInLowWords.trunc32_baseOrZero (r : Reg) :
    trunc32 (s.baseOrZero r) = trunc32 (t.baseOrZero r) := by
  unfold State.baseOrZero
  split
  · rfl
  · exact h.low r

theorem State.AlikeInLowWords.eaOf_eq (i : Instr) : s.eaOf i = t.eaOf i := by
  cases i with
  | stw rs ra d =>
    simp only [State.eaOf, State.eaStw, effectiveAddress, trunc32_add, h.trunc32_baseOrZero ra]
  | stwu rs ra d => simp only [State.eaOf, State.eaStwu, effectiveAddress, trunc32_add, h.low ra]
  | stwux rs ra rb => simp only [State.eaOf, State.eaStwux, effectiveAddress, trunc32_add, h.low ra, h.low rb]
  | stwx rs ra rb =>
    simp only [State.eaOf, State.eaStwx, effectiveAddress, trunc32_add, h.trunc32_baseOrZero ra, h.low rb]

theorem State.AlikeInLowWords.pc_eq : t.pc = s.pc := by rw [h.rest]

theorem State.AlikeInLowWords.launch_eq : t.launch = s.launch := by rw [h.rest]

theorem State.AlikeInLowWords.killReservations (ea : Addr) :
    (s.killReservations ea).AlikeInLowWords (t.killReservations ea) := by
  obtain ⟨hrest, hlow⟩ := h
  refine ⟨?_, hlow⟩
  rw [hrest]
  rfl

theorem State.AlikeInLowWords.putWord (ea : Addr) (v : Word) :
    (s.putWord ea v).AlikeInLowWords (t.putWord ea v) := by
  obtain ⟨hrest, hlow⟩ := h
  refine ⟨?_, by simpa using hlow⟩
  by_cases halone : s.others = [] ∧ s.pending = []
  · rw [hrest, State.putWord_alone halone, State.putWord_alone (s := { s with gpr := t.gpr }) halone]
  · rw [hrest, State.putWord_waiting halone, State.putWord_waiting (s := { s with gpr := t.gpr }) halone]

theorem State.AlikeInLowWords.applyUpdate (i : Instr) (ea : Addr) :
    (s.applyUpdate i ea).AlikeInLowWords (t.applyUpdate i ea) := by
  obtain ⟨hrest, hlow⟩ := h
  refine ⟨?_, fun r => ?_⟩
  · rw [hrest]
    cases i <;> rfl
  · rw [State.readGpr_applyUpdate, State.readGpr_applyUpdate]
    split
    · rfl
    · exact hlow r

theorem State.AlikeInLowWords.advancePc : s.advancePc.AlikeInLowWords t.advancePc := by
  obtain ⟨hrest, hlow⟩ := h
  refine ⟨?_, hlow⟩
  rw [hrest]
  rfl

/-- An instruction that completes in one of two such states completes in the other, and they stay such. -/
theorem exec_alikeInLowWords {i : Instr} {s' : State} (hs : exec i s = .next s') :
    ∃ t', exec i t = .next t' ∧ s'.AlikeInLowWords t' := by
  obtain ⟨hwf, hpc, hadmits, rfl⟩ := (exec_eq_next_iff i s s').1 hs
  have hpc' : t.pc ≠ Config.lastWordAddress := h.pc_eq ▸ hpc
  have hadmits' : t.admits (t.eaOf i) := by
    rw [← h.eaOf_eq i, State.admits, h.launch_eq]
    exact hadmits
  refine ⟨_, (exec_eq_next_iff i t _).2 ⟨hwf, hpc', hadmits', rfl⟩, ?_⟩
  rw [← h.eaOf_eq i, ← h.storedValue_eq]
  exact (((h.killReservations _).putWord _ _).applyUpdate i _).advancePc

end AlikeInLowWords

/-- Settles O38: the relation of the statement is `State.AlikeInLowWords`, which execution keeps. -/
theorem highWordsHaveNoEffect : Obligations.HighWordsHaveNoEffect := by
  intro i s₁ s₂ t₁ hrest hlow hexec
  obtain ⟨t₂, ht₂, halike⟩ := exec_alikeInLowWords ⟨hrest, hlow⟩ hexec
  exact ⟨t₂, ht₂, halike.rest, halike.low⟩

end Sys2Proof.Machine
end

section
/-! SUPPORT. What each of the four instructions does when its store is admitted: the bytes its thread sees,
its registers and its program counter (R63 to R71). -/

namespace Sys2Proof.Machine

theorem exec_readGpr {i : Instr} {s t : State} (h : exec i s = .next t) (r : Reg) :
    t.readGpr r = if writtenReg i = some r then zext64 (s.eaOf i) else s.readGpr r := by
  obtain ⟨-, -, -, rfl⟩ := (exec_eq_next_iff i s t).1 h
  simp

/-- `exec_completes` with the bytes, the registers and the program counter as the statements write them. -/
theorem exec_storesWord {i : Instr} {s : State} {ea : Addr} {v : Word} (hwf : i.wellFormed = true)
    (hea : ea = s.eaOf i) (hv : v = s.storedValue (sourceReg i)) (hpc : s.pc ≠ Config.lastWordAddress)
    (hadmits : s.admits ea) :
    ∃ t, exec i s = .next t ∧
      (∀ k < 4, t.threadView s.self (ea.toNat + k) = some (BitVec.ofNat 8 (v.toNat / 256 ^ (3 - k)))) ∧
      (∀ r, t.readGpr r = if writtenReg i = some r then ea.setWidth 64 else s.readGpr r) ∧
      t.pc = s.pc + 4 := by
  subst hea hv
  obtain ⟨t, ht, hbytes⟩ := exec_completes hwf hpc hadmits
  refine ⟨t, ht, fun k hk => ?_, exec_readGpr ht, exec_pc ht⟩
  rw [hbytes k hk, byteOfWord_eq_ofNat_256]

/-- Settles O20: `stw` is well formed whatever its operands, and writes no register. -/
theorem stwStoresLowWord : Obligations.StwStoresLowWord := by
  rintro s rs ra d base ea v rfl hea hv hpc hadmits
  exact exec_storesWord (i := .stw rs ra d) rfl hea hv hpc hadmits

/-- Settles O23: `stwx` is well formed whatever its operands, and writes no register. -/
theorem stwxStoresLowWord : Obligations.StwxStoresLowWord := by
  rintro s rs ra rb base ea v rfl hea hv hpc hadmits
  exact exec_storesWord (i := .stwx rs ra rb) rfl hea hv hpc hadmits

/-- An update form's one written register is RA (R66). -/
theorem exec_storesAndUpdates {i : Instr} {s : State} {ra : Reg} {ea : Addr} {v : Word}
    (hra : writtenReg i = some ra) (hwf : i.wellFormed = true) (hea : ea = s.eaOf i)
    (hv : v = s.storedValue (sourceReg i)) (hpc : s.pc ≠ Config.lastWordAddress) (hadmits : s.admits ea) :
    ∃ t, exec i s = .next t ∧
      (∀ k < 4, t.threadView s.self (ea.toNat + k) = some (BitVec.ofNat 8 (v.toNat / 256 ^ (3 - k)))) ∧
      (∀ r, t.readGpr r = if r = ra then ea.setWidth 64 else s.readGpr r) ∧ t.pc = s.pc + 4 := by
  simpa only [hra, Option.some.injEq, eq_comm (a := ra)] using exec_storesWord hwf hea hv hpc hadmits

/-- Settles O21: `stwu` is well formed where RA is not r0, and writes RA. -/
theorem stwuStoresAndUpdates : Obligations.StwuStoresAndUpdates := by
  intro s rs ra d ea v hra
  exact exec_storesAndUpdates (i := .stwu rs ra d) rfl (bne_iff_ne.2 hra)

/-- Settles O22: `stwux` is well formed where RA is not r0, and writes RA. -/
theorem stwuxStoresAndUpdates : Obligations.StwuxStoresAndUpdates := by
  intro s rs ra rb ea v hra
  exact exec_storesAndUpdates (i := .stwux rs ra rb) rfl (bne_iff_ne.2 hra)

/-! ## Operands that name one register (R70) -/

/-- The bytes of a register's low word are the low bytes of the register. -/
theorem ofNat_lowWord_div (x : DWord) {k : Nat} (hk : k < 4) :
    BitVec.ofNat 8 ((x.setWidth 32).toNat / 256 ^ (3 - k)) = BitVec.ofNat 8 (x.toNat / 256 ^ (3 - k)) := by
  apply BitVec.eq_of_toNat_eq
  rw [BitVec.toNat_ofNat, BitVec.toNat_ofNat, BitVec.toNat_setWidth]
  interval_cases k <;> omega

/-- An update form with the stored bytes read off the whole source register, whatever the operands. -/
theorem exec_storesRegister {i : Instr} {s : State} {ra : Reg} {ea : Addr}
    (hra : writtenReg i = some ra) (hwf : i.wellFormed = true) (hea : ea = s.eaOf i)
    (hpc : s.pc ≠ Config.lastWordAddress) (hadmits : s.admits ea) :
    ∃ t, exec i s = .next t ∧ t.readGpr ra = ea.setWidth 64 ∧
      ∀ k < 4, t.threadView s.self (ea.toNat + k) =
        some (BitVec.ofNat 8 ((s.readGpr (sourceReg i)).toNat / 256 ^ (3 - k))) := by
  obtain ⟨t, ht, hbytes, hregs, -⟩ := exec_storesAndUpdates hra hwf hea rfl hpc hadmits
  refine ⟨t, ht, (hregs ra).trans (if_pos rfl), fun k hk => ?_⟩
  rw [hbytes k hk, State.storedValue_eq, ofNat_lowWord_div _ hk]

/-- With RB = RA the address is twice the register's value (R70). -/
theorem eaStwux_self_toNat (s : State) (ra : Reg) :
    (s.eaStwux ra ra).toNat = 2 * (s.readGpr ra).toNat % 2 ^ 32 := by
  rw [State.eaStwux, effectiveAddress_toNat]
  omega

/-- Settles O35: each case is the update form at its operands; only RB = RA needs the address rewritten. -/
theorem sameRegisterUpdateForms : Obligations.SameRegisterUpdateForms := by
  intro s ra hra hpc
  have hwf : (ra != 0) = true := bne_iff_ne.2 hra
  refine ⟨fun d ea hea => exec_storesRegister (i := .stwu ra ra d) rfl hwf hea hpc,
    fun rb ea hea => exec_storesRegister (i := .stwux ra ra rb) rfl hwf hea hpc,
    fun rs ea hea => ?_, fun rs ea hea hadmits => ?_⟩
  · have htwice : ea = s.eaStwux ra ra :=
      BitVec.eq_of_toNat_eq (hea.trans (eaStwux_self_toNat s ra).symm)
    exact exec_storesRegister (i := .stwux rs ra ra) rfl hwf htwice hpc
  · obtain ⟨t, ht, hupdate, hbytes⟩ :=
      exec_storesRegister (i := .stwux rs ra rs) rfl hwf hea hpc hadmits
    have hframe : rs ≠ ra → t.readGpr rs = s.readGpr rs := fun hrs => by
      simp [exec_readGpr ht, writtenReg, hrs.symm]
    exact ⟨t, ht, hupdate, hframe, hbytes⟩

end Sys2Proof.Machine
end

section
/-! SUPPORT. The step as the execution of the decoded instruction, for the running thread and for one the
schedule chooses (R41, R74, R86). -/

namespace Sys2Proof.Machine

/-- A run move that names a thread is the step of that thread (R86). -/
theorem step_run {s u : State} {n : Nat} {rest : List Move} (hsched : s.schedule = .run n :: rest)
    (hu : { s with schedule := rest }.switchTo n = some u) : step s = u.threadStep := by
  rw [step, State.stepMachine, hsched]
  simp only [State.move, hu]

theorem State.threadStep_of_decode {s : State} {w : Word} {i : Instr} (hunmarked : s.unmarked)
    (hend : s.pc ≠ s.launch.endPc) (halign : s.pc.toNat % 4 = 0)
    (htext : tableGet s.launch.text s.pc.toNat = some w) (hd : decode w = .instr i) :
    s.threadStep = exec i s := by
  obtain ⟨hfaulted, hrefused⟩ := hunmarked
  simp only [State.threadStep, hfaulted, hrefused, if_neg hend, State.fetch_word halign hend htext, hd,
    State.execDecoded]

/-- Settles O13: either way the step is the thread's own, and that runs what the fetched word decodes to. -/
theorem stepRunsDecodedInstruction : Obligations.StepRunsDecodedInstruction := by
  intro s w i hunmarked hend halign htext hd
  have hthread := State.threadStep_of_decode hunmarked hend halign htext hd
  exact ⟨fun hsched => (step_eq_threadStep hsched).trans hthread,
    fun s₀ n rest hsched hswitch => (step_run hsched hswitch).trans hthread⟩

end Sys2Proof.Machine
end

section
/-! SUPPORT. Hardware threads: choosing one exchanges two threads' contexts, and a step changes only the
context of the thread that moves (R86). -/

namespace Sys2Proof.Machine

/-! ## The contexts of the threads -/

@[simp] theorem State.contextOf_self (s : State) : s.contextOf s.self = some s.context := if_pos rfl

theorem State.contextOf_of_ne_self {s : State} {k : Nat} (h : k ≠ s.self) :
    s.contextOf k = tableGet s.others k := if_neg h

theorem State.contextOf_commit (s : State) (j k : Nat) : (s.commit j).contextOf k = s.contextOf k := by
  simp [State.contextOf, State.commit_context]

/-! ## Choosing a thread -/

/-- Every thread there is can be chosen. -/
theorem State.exists_switchTo {s : State} {n : Nat} {th : Thread} (h : s.contextOf n = some th) :
    ∃ u, s.switchTo n = some u := by
  by_cases hn : n = s.self
  · exact ⟨s, (s.switchTo_eq_some_iff s n).2 (.inl ⟨hn, rfl⟩)⟩
  · rw [State.contextOf_of_ne_self hn] at h
    exact ⟨_, (s.switchTo_eq_some_iff _ n).2 (.inr ⟨hn, th, h, rfl⟩)⟩

section SwitchTo

variable {s u : State} {n : Nat} (h : s.switchTo n = some u)

include h

theorem State.switchTo_self : u.self = n := by
  rcases (s.switchTo_eq_some_iff u n).1 h with ⟨rfl, rfl⟩ | ⟨-, th, -, rfl⟩ <;> rfl

/-- The chosen thread's context was among the others and now is the running one; the context of the thread
that ran goes the other way; every other thread's stays where it was. -/
theorem State.contextOf_switchTo (k : Nat) : u.contextOf k = s.contextOf k := by
  rcases (s.switchTo_eq_some_iff u n).1 h with ⟨-, rfl⟩ | ⟨hn, th, hth, rfl⟩
  · rfl
  · by_cases hk : k = n
    · subst hk
      exact (if_pos rfl).trans ((State.contextOf_of_ne_self hn).trans hth).symm
    · refine (State.contextOf_of_ne_self hk).trans ?_
      rw [tableGet_tableSet, tableGet_tableErase, if_neg (Ne.symm hk)]
      by_cases hself : k = s.self
      · rw [if_pos hself.symm, hself, State.contextOf_self]
      · rw [if_neg (Ne.symm hself), State.contextOf_of_ne_self hself]

theorem State.switchTo_context : some u.context = s.contextOf n := by
  rw [← State.contextOf_switchTo h, ← State.switchTo_self h, State.contextOf_self]

/-- What the threads share is as before. -/
theorem State.switchTo_shared :
    u.mem = s.mem ∧ u.pending = s.pending ∧ u.res = s.res ∧ u.launch = s.launch := by
  rcases (s.switchTo_eq_some_iff u n).1 h with ⟨-, rfl⟩ | ⟨-, th, -, rfl⟩ <;> exact ⟨rfl, rfl, rfl, rfl⟩

end SwitchTo

/-- Settles O42: the exchange of the two contexts, which changes none and nothing shared. -/
theorem choosingThreadKeepsThreads : Obligations.ChoosingThreadKeepsThreads := by
  intro s n th hth
  obtain ⟨u, hu⟩ := State.exists_switchTo hth
  have hcontext : u.context = th := Option.some_inj.1 ((State.switchTo_context hu).trans hth)
  exact ⟨u, hu, State.switchTo_self hu, hcontext, State.contextOf_switchTo hu, State.switchTo_shared hu⟩

/-! ## A step -/

theorem exec_self {i : Instr} {s t : State} (h : exec i s = .next t) : t.self = s.self := by
  obtain ⟨-, -, -, rfl⟩ := (exec_eq_next_iff i s t).1 h
  simp

/-- An instruction leaves the running thread's number and the other threads as they are. -/
theorem exec_contextOf {i : Instr} {s t : State} {k : Nat} (h : exec i s = .next t) (hk : k ≠ s.self) :
    t.contextOf k = s.contextOf k := by
  rw [State.contextOf_of_ne_self hk, State.contextOf_of_ne_self (exec_self h ▸ hk), exec_others h]

theorem State.threadStep_contextOf {s t : State} {k : Nat} (h : s.threadStep = .next t) (hk : k ≠ s.self) :
    t.contextOf k = s.contextOf k := by
  obtain ⟨-, -, -, w, i, -, -, hi⟩ := (s.threadStep_eq_next_iff t).1 h
  exact exec_contextOf hi hk

/-- Settles O43: the thread that moves is the running one or the chosen one, its step leaves the others, and
choosing it or a store's becoming visible leaves every thread. -/
theorem stepLeavesOtherThreads : Obligations.StepLeavesOtherThreads := by
  intro s t k h hrunning hscheduled
  rcases step_cases s t h with
    ⟨hsched, hstep⟩ | ⟨n, rest, u, hsched, hu, hstep⟩ | ⟨n, rest, -, -, rfl⟩ | ⟨j, rest, -, rfl⟩
  · exact State.threadStep_contextOf hstep (hrunning hsched)
  · have hk : k ≠ u.self := State.switchTo_self hu ▸ hscheduled n rest hsched
    calc t.contextOf k = u.contextOf k := State.threadStep_contextOf hstep hk
      _ = { s with schedule := rest }.contextOf k := State.contextOf_switchTo hu k
      _ = s.contextOf k := rfl
  · rfl
  · exact State.contextOf_commit _ j k

end Sys2Proof.Machine
end

section
/-! SUPPORT. The end of a run (R23, R89). -/

namespace Sys2Proof.Machine

section AtEndPc

variable {s : State} (hend : s.pc = s.launch.endPc)

include hend

theorem State.threadStep_at_endPc (hunmarked : s.unmarked) : s.threadStep = .fault .runEnded := by
  obtain ⟨hfaulted, hrefused⟩ := hunmarked
  simp only [State.threadStep, hfaulted, hrefused, if_pos hend]

theorem State.threadStep_ne_next_at_endPc (t : State) : s.threadStep ≠ .next t := by
  intro h
  obtain ⟨-, hne, -⟩ := (s.threadStep_eq_next_iff t).1 h
  exact hne hend

end AtEndPc

/-- Settles O16: at `END_PC` an unmarked thread's step is the end of the run, which records nothing, and a
marked thread's step is its mark. -/
theorem endOfRunTakesNoStep : Obligations.EndOfRunTakesNoStep := by
  intro s hsched hend
  rw [step_eq_threadStep hsched, State.advance_eq_record hsched]
  refine ⟨fun hunmarked => ?_, State.threadStep_ne_next_at_endPc hend, and_iff_right hend⟩
  rw [State.threadStep_at_endPc hend hunmarked]
  exact ⟨rfl, rfl⟩

end Sys2Proof.Machine
end

section
/-! SUPPORT. Text that is defined up to `END_PC`: the fetch finds a word, the program counter has room to
advance, and a step keeps it so (R15, R41, R88). -/

namespace Sys2Proof.Machine

/-! ## The stops that name the program counter (R15, R41) -/

/-- The refusals whose cause is the program counter. -/
inductive Refusal.OfPc : Refusal → Prop
  | misalignedPc : Refusal.OfPc .misalignedPc
  | noInstruction (a : Addr) : Refusal.OfPc (.noInstruction a)
  | pcWrap : Refusal.OfPc .pcWrap

/-- The store primitive does not read the program counter (R34). -/
theorem State.memWrite_refused_not_ofPc {s : State} {ea : Addr} {v : Word} {r : Refusal}
    (h : s.memWrite ea v = .refused r) : ¬ r.OfPc := by
  unfold State.memWrite at h
  split_ifs at h <;> cases h <;> exact nofun

theorem State.completeStore_refused_ofPc {s : State} {ea : Addr} {v : Word} {update : State → State}
    {r : Refusal} (h : s.completeStore ea v update = .refused r) (hr : r.OfPc) :
    s.pc = Config.lastWordAddress := by
  unfold State.completeStore at h
  split at h
  next hpc => exact hpc
  next =>
    split at h
    next => cases h
    next => cases h
    next q hq =>
      cases h
      exact absurd hr (State.memWrite_refused_not_ofPc hq)

theorem exec_refused_ofPc {i : Instr} {s : State} {r : Refusal} (h : exec i s = .refused r)
    (hr : r.OfPc) : s.pc = Config.lastWordAddress := by
  cases hwf : i.wellFormed with
  | true =>
    rw [exec_eq_completeStore s hwf] at h
    exact State.completeStore_refused_ofPc h hr
  | false =>
    rw [exec_invalidForm s hwf] at h
    cases h
    cases hr

/-- The decoder's verdicts are about the word (R56 to R58). -/
theorem State.execDecoded_refused_ofPc {s : State} {d : Decoded} {r : Refusal}
    (h : s.execDecoded d = .refused r) (hr : r.OfPc) : s.pc = Config.lastWordAddress := by
  cases d with
  | instr i => exact exec_refused_ofPc h hr
  | invalidForm | reservedRc | notInSpec =>
    cases h
    cases hr

/-! ## Ready text (R88) -/

theorem State.threadStep_of_fetch_word {s : State} {w : Word} (hunmarked : s.unmarked)
    (hend : s.pc ≠ s.launch.endPc) (h : s.fetch = .word w) : s.threadStep = s.execDecoded (decode w) := by
  obtain ⟨hfaulted, hrefused⟩ := hunmarked
  simp only [State.threadStep, hfaulted, hrefused, if_neg hend, h]

section TextReady

variable {s : State} (h : s.textReady)

include h

/-- Short of `END_PC` there is room for one instruction before it: both are multiples of 4. -/
theorem State.textReady.pc_add_four_le (hend : s.pc ≠ s.launch.endPc) :
    s.pc.toNat + 4 ≤ s.launch.endPc.toNat := by
  obtain ⟨hpc, hendPc, hle, -⟩ := h
  bv_omega

theorem State.textReady.pc_ne_lastWordAddress (hend : s.pc ≠ s.launch.endPc) :
    s.pc ≠ Config.lastWordAddress := by
  intro hlast
  have hroom := h.pc_add_four_le hend
  rw [hlast, show Config.lastWordAddress.toNat = 0xFFFFFFFC from rfl] at hroom
  omega

theorem State.textReady.fetch_word (hend : s.pc ≠ s.launch.endPc) : ∃ w, s.fetch = .word w := by
  have hroom := h.pc_add_four_le hend
  obtain ⟨halign, -, -, htext⟩ := h
  obtain ⟨w, hw⟩ := Option.isSome_iff_exists.1 (htext 0 (by omega))
  exact ⟨w, State.fetch_word halign hend hw⟩

theorem State.textReady.fetch_ne_refused (r : Refusal) : s.fetch ≠ .refused r := by
  by_cases hend : s.pc = s.launch.endPc
  · obtain ⟨halign, -⟩ := h
    rw [State.fetch, if_neg (not_not.2 halign), if_pos hend]
    exact nofun
  · obtain ⟨w, hw⟩ := h.fetch_word hend
    rw [hw]
    exact nofun

/-- The words up to `END_PC` from the next instruction on are all but the first of those from this one on. -/
theorem State.textReady.of_next {t : State} (hend : s.pc ≠ s.launch.endPc) (hpc : t.pc = s.pc + 4)
    (hlaunch : t.launch = s.launch) : t.textReady := by
  have hroom := h.pc_add_four_le hend
  have hne := h.pc_ne_lastWordAddress hend
  obtain ⟨halign, hendPc, -, htext⟩ := h
  have hnext : t.pc.toNat = s.pc.toNat + 4 := by rw [hpc, toNat_add_four halign hne]
  rw [State.textReady, hlaunch, BitVec.le_def, hnext]
  refine ⟨by omega, hendPc, hroom, fun k hk => ?_⟩
  rw [show s.pc.toNat + 4 + 4 * k = s.pc.toNat + 4 * (k + 1) by omega]
  exact htext (k + 1) (by omega)

theorem State.textReady.threadStep {t : State} (hstep : s.threadStep = .next t) : t.textReady := by
  obtain ⟨-, hend, -, w, i, -, -, hi⟩ := (s.threadStep_eq_next_iff t).1 hstep
  exact h.of_next hend (exec_pc hi) (exec_launch hi)

/-- At `END_PC` the run has ended; short of it a word is fetched, and the program counter is not the one whose
successor does not fit. -/
theorem State.textReady.threadStep_refused_not_ofPc (hunmarked : s.unmarked) {r : Refusal}
    (hstep : s.threadStep = .refused r) : ¬ r.OfPc := by
  intro hr
  by_cases hend : s.pc = s.launch.endPc
  · simp [State.threadStep_at_endPc hend hunmarked] at hstep
  · obtain ⟨w, hw⟩ := h.fetch_word hend
    rw [State.threadStep_of_fetch_word hunmarked hend hw] at hstep
    exact h.pc_ne_lastWordAddress hend (State.execDecoded_refused_ofPc hstep hr)

end TextReady

/-- Settles O18: the step keeps the text ready, and none of the three stops is one it can answer. -/
theorem readyTextStaysReady : Obligations.ReadyTextStaysReady := by
  intro s h
  refine ⟨fun t => h.threadStep, h.fetch_ne_refused, fun hunmarked => ?_⟩
  have hstop : ∀ r : Refusal, r.OfPc → s.threadStep ≠ .refused r := fun r hr hstep =>
    h.threadStep_refused_not_ofPc hunmarked hstep hr
  exact ⟨hstop _ .misalignedPc, hstop _ .pcWrap, fun a => hstop _ (.noInstruction a)⟩

end Sys2Proof.Machine
end

section
/-! SUPPORT. The frame-allocation idiom: a displacement that is a negative frame size (R50, R73, R90). -/

namespace Sys2Proof.Machine

/-- The 16-bit pattern of minus a frame size sign-extends to minus the frame size (R50). -/
theorem sext64_neg_frame {frame : Nat} (hpos : 0 < frame) (hle : frame ≤ 32768) :
    sext64 (BitVec.ofNat 16 (65536 - frame)) = -BitVec.ofNat 64 frame := by
  have hint : (BitVec.ofNat 16 (65536 - frame)).toInt = -frame := by
    rw [BitVec.toInt_eq_toNat_cond, BitVec.toNat_ofNat]
    split <;> omega
  have hext := sext64_toNat (BitVec.ofNat 16 (65536 - frame))
  apply BitVec.eq_of_toNat_eq
  rw [BitVec.toNat_neg, BitVec.toNat_ofNat]
  omega

/-- Settles O36: the displacement's address is the old r1 less the frame size, and `stwu` with RS = RA = r1
stores and updates there. -/
theorem frameAllocationIdiom : Obligations.FrameAllocationIdiom := by
  intro s frame ea hpos hle hpc hea hadmits
  have heaOf : ea = s.eaOf (.stwu 1 1 (BitVec.ofNat 16 (65536 - frame))) := by
    rw [hea, State.eaOf, State.eaStwu, effectiveAddress, sext64_neg_frame hpos hle, ← BitVec.sub_eq_add_neg,
      trunc32]
  obtain ⟨t, ht, hupdate, hbytes⟩ := exec_storesRegister rfl rfl heaOf hpc hadmits
  refine ⟨t, ht, hupdate, hbytes, fun r hr => ?_⟩
  simp [exec_readGpr ht, writtenReg, hr.symm]

end Sys2Proof.Machine
end

section
/-! SUPPORT. Cache lines: which word stores touch two (R29, R95). -/

namespace Sys2Proof.Machine

theorem straddlesLine_iff (ea : Addr) : straddlesLine ea = true ↔ 124 < ea.toNat % 128 :=
  decide_eq_true_iff

/-- Settles O41: the last three residues are those from which a fourth byte is in the next line. -/
theorem lineStraddle : Obligations.LineStraddle := by
  intro ea
  rw [straddlesLine_iff]
  constructor <;> omega

end Sys2Proof.Machine
end

section
/-! SUPPORT. The state before the first step: the values the spec gives a launch (R6, R24, R30) and those the
model chooses. -/

namespace Sys2Proof.Machine

/-- Every register is zero before the first step (assumption 1). -/
@[simp] theorem State.readGpr_reset (r : Reg) : State.reset.readGpr r = 0 :=
  Vector.getElem_replicate r.isLt

/-- No storage is cache-inhibited unless a launch says so (R30). -/
@[simp] theorem Launch.inhibited_reset (a : Nat) : Launch.reset.inhibited a = false := rfl

/-- The map before the first step is one region that holds exactly the 32-bit addresses (R20, assumption 2). -/
@[simp] theorem Launch.mapped_reset_iff (a : Nat) : Launch.reset.mapped a = true ↔ a < 2 ^ 32 := by
  simp [Launch.mapped, inRegions, Launch.reset, Region.holds, Config.addressLimit]

/-- No text is in order, and a cache line is a power of two not smaller than 4 (R6, R21, assumption 11). -/
theorem Launch.wf_reset : Launch.reset.wf :=
  ⟨.nil, List.forall_mem_nil _, by decide, by decide⟩

/-- Settles O10: the fields as they stand, with what the registers, the two kinds of storage and the empty memory
answer at every number or address. -/
theorem launchValuesBeforeFirstStep : Obligations.LaunchValuesBeforeFirstStep :=
  ⟨rfl, rfl, rfl, rfl, Launch.inhibited_reset, State.readGpr_reset, rfl, rfl, rfl,
    fun a => (Launch.mapped_reset_iff a).2, rfl, tableGet_nil, rfl, rfl⟩

/-- Settles O11: the launch is in canonical form, and everything else the invariant speaks of is empty. -/
theorem resetMeetsInvariant : Obligations.ResetMeetsInvariant := by
  have hmem : State.reset.mem.wf := ⟨.nil, List.forall_mem_nil _⟩
  have hreservations : State.reset.reservationsWf := ⟨.nil, List.forall_mem_nil _⟩
  have hthreads : State.reset.threadsWf := ⟨.nil, List.forall_mem_nil _⟩
  have hpending : State.reset.pendingWf := ⟨List.forall_mem_nil _, fun _ => rfl⟩
  exact ⟨hmem, Launch.wf_reset, hreservations, hthreads, hpending⟩

end Sys2Proof.Machine
end
